-- ==== Sys2Proof/Word.lean ====
section
/-! DEFINITION. The words of the core: 32-bit operand and result words, 67-bit command words. -/

namespace Sys2Proof

/-- A value at the core's ports: 32 bits, bit 31 first when written (20_memory.md R41, R43; 40_representation.md R80). -/
abbrev Word := BitVec 32

/-- The command word `C` (30_encoding.md R60): bits 66..64 `OP`, bits 63..32 `A`, bits 31..0 `B`. -/
abbrev CommandWord := BitVec 67

end Sys2Proof
end

