-- ==== Sys2Proof/Syntax.lean ====
section
/-! DEFINITION. The five commands of the core (00_scope.md R3; 30_encoding.md R62), and the spec's own assembly
syntax for commands and host programs (30_encoding.md R70 to R73). -/

namespace Sys2Proof

/-- One constructor per row of the op code map (30_encoding.md R62), with the operands of R61 and R63. -/
inductive Instr where
  /-- ADD, `A + B` (42_addsub.md R145). -/
  | add (a b : Word)
  /-- SUB, `A - B` (42_addsub.md R146). -/
  | sub (a b : Word)
  /-- MUL, `A * B` (43_multiply.md R170). -/
  | mul (a b : Word)
  /-- DIV, `A / B` (44_divide.md R190). -/
  | div (a b : Word)
  /-- I2F, the two's complement integer `A` to FP32 (41_normalize.md R112). It has no second operand (30_encoding.md R65). -/
  | i2f (a : Word)
  deriving DecidableEq, Repr

/-- A host value name, the letter `v` with what follows it (30_encoding.md R72). -/
abbrev ValueName := List Char

/-- An operand of an assembly line (30_encoding.md R70). -/
inductive AsmOperand where
  /-- A hexadecimal word `0xhhhhhhhh`. -/
  | hex (w : Word)
  /-- A decimal integer, for I2F alone. -/
  | decimal (n : Int)
  /-- The name of an earlier result. -/
  | name (v : ValueName)
  deriving DecidableEq, Repr

/-- The mnemonics of two operands (30_encoding.md R70). -/
inductive TwoOp where
  | add | sub | mul | div
  deriving DecidableEq, Repr

/-- One command in assembly syntax (30_encoding.md R70). -/
inductive AsmCommand where
  /-- `MNEMONIC a, b`. -/
  | two (m : TwoOp) (a b : AsmOperand)
  /-- `I2F a`. -/
  | i2f (a : AsmOperand)
  deriving DecidableEq, Repr

/-- One line of a host program (30_encoding.md R72) or a pseudo-operation (R73). -/
inductive AsmLine where
  /-- `vN = MNEMONIC a, b` or `vN = I2F a`. -/
  | command (dest : ValueName) (c : AsmCommand)
  /-- `vN = MOV x`: no command is issued. -/
  | mov (dest : ValueName) (x : AsmOperand)
  /-- `vN = FNEG x`: no command is issued. -/
  | fneg (dest : ValueName) (x : AsmOperand)
  /-- `TOFLOAT x`: no command is issued and no name is written. -/
  | tofloat (x : AsmOperand)
  deriving DecidableEq, Repr

/-- A host program is its command and pseudo-operation lines, in order; host control flow is unrolled by the host
(30_encoding.md R72; 95_test_vectors.md L3). -/
abbrev AsmProgram := List AsmLine

end Sys2Proof
end

