-- ==== Sys2Proof/WellFormed.lean ====
section
/-! DEFINITION. Which op codes spell an operation (30_encoding.md R62, R64) and which assembly terms R70 and R72
admit. An `Instr` needs no check: its operands are words, and every word is a legal operand (60_exceptions.md R205). -/

namespace Sys2Proof

/-- An op code of the map is one that is not reserved (30_encoding.md R62, R64). -/
def opAdmitted (op : BitVec 3) : Bool := decide (op.toNat < 5)

/-- An operand R70 admits for ADD, SUB, MUL, DIV and the pseudo-operations: a word or a name, no decimal. -/
def AsmOperand.wordForm : AsmOperand → Bool
  | .hex _ => true
  | .decimal _ => false
  | .name _ => true

/-- An operand R70 admits for I2F: a word, a name, or a decimal in -2147483648 .. 2147483647. -/
def AsmOperand.integerForm : AsmOperand → Bool
  | .hex _ => true
  | .decimal n => decide (-2147483648 ≤ n) && decide (n ≤ 2147483647)
  | .name _ => true

/-- The commands R70 admits. -/
def AsmCommand.wellFormed : AsmCommand → Bool
  | .two _ a b => a.wordForm && b.wordForm
  | .i2f a => a.integerForm

/-- The lines R70, R72 and R73 admit, each by itself. -/
def AsmLine.wellFormed : AsmLine → Bool
  | .command _ c => c.wellFormed
  | .mov _ x => x.wordForm
  | .fneg _ x => x.wordForm
  | .tofloat x => x.wordForm

/-- The name a line writes, where it writes one (30_encoding.md R72, R73). -/
def AsmLine.dest? : AsmLine → Option ValueName
  | .command d _ => some d
  | .mov d _ => some d
  | .fneg d _ => some d
  | .tofloat _ => none

/-- A host program R72 admits: every line well-formed, and each name written once. -/
def AsmProgram.wellFormed (p : AsmProgram) : Bool :=
  p.all AsmLine.wellFormed && decide (p.filterMap AsmLine.dest?).Nodup

end Sys2Proof
end

