-- ==== Sys2Proof/Decode.lean ====
section
/-! DEFINITION. The decoder of a command word, total over all 67-bit words (30_encoding.md R66), its encoder, and the
printed form of a command (R71). -/

namespace Sys2Proof

/-- The `OP` field of a command word (30_encoding.md R60). -/
def CommandWord.op (c : CommandWord) : BitVec 3 := c.extractLsb' 64 3

/-- The `A` field of a command word (30_encoding.md R60). -/
def CommandWord.a (c : CommandWord) : Word := c.extractLsb' 32 32

/-- The `B` field of a command word (30_encoding.md R60). -/
def CommandWord.b (c : CommandWord) : Word := c.extractLsb' 0 32

/-- The command word `{OP, A, B}` of three separate inputs (30_encoding.md R60; 10_state.md R21). -/
def CommandWord.ofFields (op : BitVec 3) (a b : Word) : CommandWord := (op ++ (a ++ b)).cast rfl

/-- A command word is admitted when its op code is not reserved (30_encoding.md R62, R64). -/
def CommandWord.admitted (c : CommandWord) : Bool := opAdmitted c.op

/-- Why a command word is no instruction. -/
inductive DecodeRefusal where
  /-- The op code is 0b101, 0b110 or 0b111 (30_encoding.md R64). -/
  | reservedOp (op : BitVec 3)
  deriving DecidableEq, Repr

/-- The decoder of 30_encoding.md R66, by the op code map of R62. I2F drops `B` (R65). -/
def decode (c : CommandWord) : Except DecodeRefusal Instr :=
  match c.op.toNat with
  | 0 => .ok (.add c.a c.b)
  | 1 => .ok (.sub c.a c.b)
  | 2 => .ok (.mul c.a c.b)
  | 3 => .ok (.div c.a c.b)
  | 4 => .ok (.i2f c.a)
  | _ => .error (.reservedOp c.op)

/-- The op code of an instruction (30_encoding.md R62). -/
def Instr.opcode : Instr → BitVec 3
  | .add _ _ => 0b000#3
  | .sub _ _ => 0b001#3
  | .mul _ _ => 0b010#3
  | .div _ _ => 0b011#3
  | .i2f _ => 0b100#3

/-- The `A` field of an instruction (30_encoding.md R61). -/
def Instr.fieldA : Instr → Word
  | .add a _ => a
  | .sub a _ => a
  | .mul a _ => a
  | .div a _ => a
  | .i2f a => a

/-- The `B` field of an instruction; I2F is encoded with `B = 0x00000000` (30_encoding.md R65). -/
def Instr.fieldB : Instr → Word
  | .add _ b => b
  | .sub _ b => b
  | .mul _ b => b
  | .div _ b => b
  | .i2f _ => 0#32

/-- The encoder: `C = {OP, A, B}` (30_encoding.md R60, R62, R65). -/
def encode (i : Instr) : CommandWord := CommandWord.ofFields i.opcode i.fieldA i.fieldB

/-- One hexadecimal digit, capitals as 30_encoding.md R71 prints them. -/
def hexDigit (n : Nat) : Char :=
  if n < 10 then Char.ofNat (48 + n) else Char.ofNat (55 + n)

/-- The last `k` hexadecimal digits of a number, most significant first. -/
def hexDigits : Nat → Nat → List Char
  | 0, _ => []
  | k + 1, n => hexDigits k (n / 16) ++ [hexDigit (n % 16)]

/-- The encoded form `op_AAAAAAAA_BBBBBBBB` of a command (30_encoding.md R71). -/
def printEncoded (c : CommandWord) : List Char :=
  hexDigits 1 c.op.toNat ++ '_' :: hexDigits 8 c.a.toNat ++ '_' :: hexDigits 8 c.b.toNat

/-- What the decoder reads from the bits `w` as spec/opcode_table.json numbers them (bit 0 is bit 0 of `C`, R60).
A command has exactly 67 bits (R66): a number with a bit above bit 66 is no command (DEDUCED, safe: log entry 10). -/
def decodeTableWord (nbits w : Nat) : Option Instr :=
  if w % 2 ^ nbits < 2 ^ 67 then
    match decode (BitVec.ofNat 67 (w % 2 ^ nbits)) with
    | .ok i => some i
    | .error _ => none
  else none

end Sys2Proof
end

