-- ==== Sys2Proof/Config.lean ====
section
/-! DEFINITION. What the block's builder fixes: the parameters of 00_scope.md R5 and R6.
The core has no free value: 93_implementation_defined.md leaves no result bit open. -/

namespace Sys2Proof

/-- The two readings of the alignment step's sticky fold (00_scope.md R6; 42_addsub.md R135). -/
inductive AlignStickyFold where
  /-- The sticky is ORed into bit 0 of the shifted operand. -/
  | or
  /-- The sticky takes the place of bit 0 of the shifted operand. -/
  | replace
  deriving DecidableEq, Repr

/-- `ALIGN_STICKY_FOLD` of this hardware (00_scope.md R6; conflict C2 of 90_conflicts.md).
Every engine function takes the parameter as an argument; only the five meanings read this value. -/
def Config.alignStickyFold : AlignStickyFold := .or

/-- The exponent bias (00_scope.md R5). -/
abbrev Config.bias : Int := 127

/-- The provisional exponent every caller gives the normalizer, 150 = 127 + 23 (00_scope.md R5; 41_normalize.md R100). -/
abbrev Config.provisionalExponent : Int := 150

/-- The low bits an addition adds below each significand: guard, round, sticky (00_scope.md R5; 42_addsub.md R133). -/
abbrev Config.addExtension : Nat := 3

/-- How many low product bits a multiplication folds into its sticky (00_scope.md R5; 43_multiply.md R162). -/
abbrev Config.productCut : Nat := 20

/-- The shift-and-add steps of a multiplication (00_scope.md R5; 43_multiply.md R161). -/
abbrev Config.multiplySteps : Nat := 24

/-- The quotient iterations of a division (00_scope.md R5; 44_divide.md R181). -/
abbrev Config.divideIterations : Nat := 26

end Sys2Proof
end

