-- ==== Sys2Proof/Machine/Flags.lean ====
section
/-! DEFINITION. The sticky bits and the rounding decision. The core has no status flag and no condition code
(10_state.md R24): guard, round and sticky live only inside a command (R28). -/

namespace Sys2Proof.Machine

/-- `OR(v[n-1:0])` (00_scope.md R9): is any of the low `n` bits 1? False for `n = 0`. -/
def anyBitBelow (v n : Nat) : Bool := v % 2 ^ n != 0

/-- Folding the alignment sticky into bit 0 of the shifted operand (42_addsub.md R135). -/
def foldSticky (fold : AlignStickyFold) (x : Nat) (sticky : Bool) : Nat :=
  match fold with
  | .or => x ||| sticky.toNat
  | .replace => (x - (x.testBit 0).toNat) + sticky.toNat

/-- Does the normalizer's rounding step increment? `gr` is the guard/round pair, `st` the sticky, `low` the retained low
bit (41_normalize.md R105, R106, R107). -/
def roundsUp (gr : BitVec 2) (st low : Bool) : Bool :=
  match gr.toNat with
  | 0 => false
  | 1 => false
  | 2 => st || low
  | _ => true

end Sys2Proof.Machine
end

