-- ==== Sys2Proof/Machine/Operands.lean ====
section
/-! DEFINITION. The operand forms: the FP32 word and its fields, the significand, packing, negation, and the two's
complement integer of I2F (40_representation.md; 30_encoding.md R63). -/

namespace Sys2Proof.Machine

/-- The triple `(s, e, f)` of the source's data model (00_scope.md R11; 40_representation.md R80). -/
structure FloatValue where
  sign : BitVec 1
  exponent : BitVec 8
  fraction : BitVec 23
  deriving DecidableEq, Repr

/-- `Unpack(w)`: bit 31, bits 30..23, bits 22..0 (40_representation.md R81). -/
def unpack (w : Word) : FloatValue where
  sign := w.extractLsb' 31 1
  exponent := w.extractLsb' 23 8
  fraction := w.extractLsb' 0 23

/-- `Pack(s, E, f) = {s, E mod 256, f}`, the exponent being any integer (40_representation.md R85). -/
def pack (s : BitVec 1) (E : Int) (f : BitVec 23) : Word :=
  (s ++ (BitVec.ofNat 8 (E % 256).toNat ++ f)).cast rfl

/-- `IsZero(w)`: the exponent field is 0, whatever the sign and the fraction (40_representation.md R82). -/
def isZero (w : Word) : Bool := (unpack w).exponent == 0#8

/-- `Sig(w)`: the implied leading one only when the exponent field is nonzero (40_representation.md R84). -/
def sig (w : Word) : Nat :=
  if (unpack w).exponent = 0#8 then (unpack w).fraction.toNat else 2 ^ 23 + (unpack w).fraction.toNat

/-- The exponent field as the integer 0..255 the exponent corrections use (40_representation.md R81). -/
def expField (w : Word) : Int := ((unpack w).exponent.toNat : Int)

/-- `NEG(w) = w ^ 0x80000000` (40_representation.md R86). -/
def neg (w : Word) : Word := w ^^^ 0x80000000#32

/-- The zero that the normalizing engine constructs (40_representation.md R87). -/
def constructedZero : Word := 0#32

/-- A zero of a given sign, `{s, 0x00, 0}` (43_multiply.md R163; 44_divide.md R183). -/
def signedZero (s : BitVec 1) : Word := pack s 0 0#23

/-- The sign of a product or a quotient: the XOR of the operand signs (43_multiply.md R165; 44_divide.md R185). -/
def signXor (a b : Word) : BitVec 1 := (unpack a).sign ^^^ (unpack b).sign

/-- A magnitude with an operand's sign applied (42_addsub.md R136). -/
def applySign (s : BitVec 1) (x : Nat) : Int := if s = 1#1 then -(x : Int) else (x : Int)

/-- `sext_32(w)`: the word read as a two's complement integer (00_scope.md R9; 30_encoding.md R63). -/
def sext32 (w : Word) : Int := if w.getLsbD 31 then (w.toNat : Int) - 2 ^ 32 else (w.toNat : Int)

/-- What an engine hands to its output: a word as it stands, or parts still to be packed (40_representation.md R85). -/
inductive EngineResult where
  /-- A short-circuited operand or a zero: no exponent correction applies. -/
  | word (w : Word)
  /-- A rounded result with its true biased exponent, which packing reduces modulo 256. -/
  | parts (s : BitVec 1) (E : Int) (f : BitVec 23)
  deriving DecidableEq, Repr

/-- The word an engine's result becomes. -/
def resultWord : EngineResult → Word
  | .word w => w
  | .parts s E f => pack s E f

end Sys2Proof.Machine
end

