-- ==== Sys2Proof/Machine/State.lean ====
section
/-! DEFINITION. The state of the core: what stands on its inputs, what it has accepted, and its output `Y`.
It has no register, flag, memory, program counter or mode (10_state.md R20 to R27). -/

namespace Sys2Proof.Machine

/-- Why the model stops with a fault. No command of the core faults (60_exceptions.md R200). -/
inductive Fault where
  /-- Raised by `State.readY`: the host reads `Y` before any command gave one (10_state.md R31; 93_implementation_defined.md U8).
  Safe: no value is invented. -/
  | yBeforeFirstCommand
  /-- Raised by the host program's operand read: no earlier line wrote the name (30_encoding.md R72; U9).
  Safe: no value is invented. -/
  | unwrittenName
  deriving DecidableEq, Repr

/-- Why the model refuses to go on. -/
inductive Refusal where
  /-- Raised by an arm of `exec` for an instruction without a meaning. No arm raises it in this model. Safe. -/
  | notModelled (mnemonic : String)
  /-- Raised by `step`: the command's op code is reserved and spells no operation (30_encoding.md R64; U6). Safe. -/
  | reservedOp (op : BitVec 3)
  /-- Raised by `step`: the inputs changed before the circuit accepted the command (70_reset_and_hazards.md R235; U11). Safe. -/
  | inputsChanged
  /-- Raised by `step`: reset discarded the command, which has no result until the host issues it again
  (70_reset_and_hazards.md R230; U10). Safe. -/
  | abandonedByReset
  /-- Raised by the host program's lines: 30_encoding.md R70 or R72 does not admit the line. DESIGN CHOICE, safe: log entry 9. -/
  | illFormedLine
  deriving DecidableEq, Repr

/-- The command inputs `OP`, `A`, `B` (10_state.md R21), as the core sees them. -/
inductive Port where
  /-- No command is presented: the core waits for one (70_reset_and_hazards.md R231). -/
  | idle
  /-- The host presents this command and holds it stable (70_reset_and_hazards.md R235). -/
  | issued (c : CommandWord)
  /-- The inputs changed before the command was accepted: no command (70_reset_and_hazards.md R235). -/
  | inputsChanged
  /-- Reset discarded a command in flight, which the host must issue again (70_reset_and_hazards.md R230). -/
  | abandoned
  deriving DecidableEq, Repr

/-- The machine. -/
structure State where
  /-- What stands on the inputs (10_state.md R21). -/
  port : Port
  /-- Commands accepted whose results are not delivered yet, oldest first (70_reset_and_hazards.md R234). The list is the
  model's own field. DEDUCED, safe: log entry 1. -/
  inFlight : List CommandWord
  /-- The output `Y`: none before the first command (10_state.md R31), then the last result. -/
  y : Option Word
  deriving DecidableEq, Repr

/-- Reset: no command presented, none in flight, no `Y` yet (10_state.md R31; 70_reset_and_hazards.md R231). -/
def State.reset : State where
  port := .idle
  inFlight := []
  y := none

/-- What a step finds to do. -/
inductive Fetched where
  /-- No command waits. -/
  | nothing
  /-- This command is next; `rest` is the state without it. -/
  | command (c : CommandWord) (rest : State)
  /-- What stands on the inputs is no command. -/
  | stopped (r : Refusal)
  deriving DecidableEq, Repr

end Sys2Proof.Machine
end

