-- ==== Sys2Proof/Machine/Ops.lean ====
section
/-! DEFINITION. The named operations over the core's state: delivering a result, finding the next command, and what the
host and the circuit's handshake do between steps.

There is no exception entry and no return from one: the core has no trap mechanism (60_exceptions.md R200, R208, R209).
There is no memory operation: the core has no memory (20_memory.md R40). -/

namespace Sys2Proof.Machine

/-- `Y <- v` (00_scope.md R10): the one effect of a command. -/
def State.writeY (s : State) (w : Word) : State := { s with y := some w }

/-- The next command: the oldest accepted one (70_reset_and_hazards.md R234), else the one on the inputs, which the
circuit then accepts and completes (R233). DEDUCED: log entries 1 and 3. -/
def State.fetch (s : State) : Fetched :=
  match s.inFlight with
  | c :: cs => .command c { s with inFlight := cs }
  | [] =>
    match s.port with
    | .idle => .nothing
    | .issued c => .command c { s with port := .idle }
    | .inputsChanged => .stopped .inputsChanged
    | .abandoned => .stopped .abandonedByReset

/-- The host presents the command word `c` (30_encoding.md R60). Presenting other inputs while a command waits to be
accepted is a change of inputs (70_reset_and_hazards.md R235); after a reset the host issues its command anew (R230).
That changed inputs stay so is a DESIGN CHOICE, safe: log entry 6. -/
def State.drive (s : State) (c : CommandWord) : State :=
  match s.port with
  | .idle => { s with port := .issued c }
  | .issued c' => if c = c' then s else { s with port := .inputsChanged }
  | .inputsChanged => s
  | .abandoned => { s with port := .issued c }

/-- The host presents the three fields on three separate inputs (30_encoding.md R60; 10_state.md R21). -/
def State.drivePorts (s : State) (op : BitVec 3) (a b : Word) : State :=
  s.drive (CommandWord.ofFields op a b)

/-- The circuit accepts the command on the inputs, whatever its handshake (70_reset_and_hazards.md R235): the command
joins those whose results are still to come, in issue order (R234). -/
def State.accept (s : State) : State :=
  match s.port with
  | .issued c => { s with port := .idle, inFlight := s.inFlight ++ [c] }
  | .idle => s
  | .inputsChanged => s
  | .abandoned => s

/-- Whether a command, or an attempt at one, is on the inputs or in flight. -/
def State.busy (s : State) : Bool := !(s.port == .idle && s.inFlight.isEmpty)

/-- Reset applied between steps (70_reset_and_hazards.md R230): a command in flight is abandoned, and `Y` goes to its
reset value, no value (10_state.md R31). DESIGN CHOICE, safe: log entries 4 and 5.
A reserved command presented or accepted is discarded like any other, and a command driven later runs: what a reset does to the
refusal that R64 of 30_encoding.md keeps for the whole run is not stated. DESIGN CHOICE, unsafe: log entry 13. -/
def State.resetPulse (s : State) : State :=
  { port := if s.busy then .abandoned else .idle, inFlight := [], y := none }

/-- The host reads `Y`: a fault before the first command (10_state.md R31). -/
def State.readY (s : State) : Except Fault Word :=
  match s.y with
  | some w => .ok w
  | none => .error .yBeforeFirstCommand

end Sys2Proof.Machine
end

