-- ==== Sys2Proof/Machine/Normalize.lean ====
section
/-! DEFINITION. The normalizing rounding engine `NORM` (41_normalize.md R100 to R111) and the I2F command (R112). -/

namespace Sys2Proof.Machine

/-- The engine's working values `M`, `E`, `gr`, `st` (10_state.md R28; 41_normalize.md R102). -/
structure NormWork where
  M : Nat
  E : Int
  gr : BitVec 2
  st : Bool
  deriving DecidableEq, Repr

/-- The triple `(s, E, f)` the engine returns for a nonzero input (41_normalize.md R100). -/
structure Normalized where
  sign : BitVec 1
  exponent : Int
  fraction : BitVec 23
  deriving DecidableEq, Repr

/-- The start values for a nonzero input (41_normalize.md R102). -/
def normStart (m e0 : Int) : NormWork where
  M := m.natAbs
  E := e0
  gr := 0b00#2
  st := false

/-- One iteration of the right normalization: the round bit joins the sticky, the guard becomes the round, the bit shifted
out becomes the guard (41_normalize.md R103; conflict C1). -/
def normShiftRight (n : NormWork) : NormWork where
  M := n.M >>> 1
  E := n.E + 1
  gr := BitVec.ofBool (n.M.testBit 0) ++ n.gr.extractLsb' 1 1
  st := n.st || n.gr.getLsbD 0

/-- `while M >= 2^24` (41_normalize.md R103), at most `fuel` iterations. -/
def normRight : Nat → NormWork → NormWork
  | 0, n => n
  | fuel + 1, n => if 2 ^ 24 ≤ n.M then normRight fuel (normShiftRight n) else n

/-- One iteration of the left normalization (41_normalize.md R104). -/
def normShiftLeft (n : NormWork) : NormWork := { n with M := n.M <<< 1, E := n.E - 1 }

/-- `while M < 2^23` (41_normalize.md R104), at most `fuel` iterations. -/
def normLeft : Nat → NormWork → NormWork
  | 0, n => n
  | fuel + 1, n => if n.M < 2 ^ 23 then normLeft fuel (normShiftLeft n) else n

/-- The rounding step (41_normalize.md R105 to R107). -/
def normRound (n : NormWork) : NormWork :=
  if roundsUp n.gr n.st (n.M.testBit 0) then { n with M := n.M + 1 } else n

/-- The one carry renormalization (41_normalize.md R108). -/
def normCarry (n : NormWork) : NormWork :=
  if n.M = 2 ^ 24 then { n with M := n.M >>> 1, E := n.E + 1 } else n

/-- The working values when the engine's steps are done. The loop bounds are enough for every nonzero input: a magnitude of
`k + 1` bits needs at most `k` right shifts, and one of at least 1 needs at most 23 left shifts (70_reset_and_hazards.md R236; DEDUCED, safe: log entry 11). -/
def normWork (m e0 : Int) : NormWork :=
  normCarry (normRound (normLeft 23 (normRight m.natAbs.log2 (normStart m e0))))

/-- `NORM(m, e0)` (41_normalize.md R109); `none` is `ZERO` (R101). The exponent is not reduced and its range is not
checked (R111). -/
def norm (m e0 : Int) : Option Normalized :=
  if m = 0 then none
  else some
    { sign := if m < 0 then 1#1 else 0#1
      exponent := (normWork m e0).E
      fraction := BitVec.ofNat 23 (normWork m e0).M }

/-- The engine of I2F: `NORM(sext_32(A), 150)` with no exponent correction (41_normalize.md R112). -/
def i2fEngine (a : Word) : EngineResult :=
  match norm (sext32 a) Config.provisionalExponent with
  | none => .word constructedZero
  | some n => .parts n.sign n.exponent n.fraction

/-- I2F: the value written to `Y` is the integer `A` rounded to FP32 (41_normalize.md R112). -/
def execI2f (a : Word) (s : State) : Host.Outcome State Fault Refusal :=
  .next (s.writeY (resultWord (i2fEngine a)))

end Sys2Proof.Machine
end

