-- ==== Sys2Proof/Machine/AddSub.lean ====
section
/-! DEFINITION. The add/subtract engine and the commands ADD and SUB (42_addsub.md). -/

namespace Sys2Proof.Machine

/-- The operand being aligned and the sticky gathered so far (42_addsub.md R135). -/
structure Aligning where
  x : Nat
  sticky : Bool
  deriving DecidableEq, Repr

/-- The alignment loop: `d` shifts, each bit ORed into the sticky as it leaves (42_addsub.md R135). -/
def alignLoop : Nat → Aligning → Aligning
  | 0, t => t
  | d + 1, t => alignLoop d { x := t.x >>> 1, sticky := t.sticky || t.x.testBit 0 }

/-- `align(X, d)`: the loop, then the fold of the sticky into bit 0 (42_addsub.md R135). -/
def align (fold : AlignStickyFold) (x d : Nat) : Nat :=
  foldSticky fold (alignLoop d { x := x, sticky := false }).x (alignLoop d { x := x, sticky := false }).sticky

/-- The extended significand, three low bits below the significand (42_addsub.md R133). -/
def extendedSig (w : Word) : Nat := sig w <<< Config.addExtension

/-- `Xa` when the sum is formed: shifted only if `A`'s exponent is the smaller (42_addsub.md R134, R135). -/
def alignedA (fold : AlignStickyFold) (a b : Word) : Nat :=
  if expField a ≥ expField b then extendedSig a
  else align fold (extendedSig a) (expField b - expField a).toNat

/-- `Xb` when the sum is formed: shifted unless `A`'s exponent is the smaller (42_addsub.md R134, R135). -/
def alignedB (fold : AlignStickyFold) (a b : Word) : Nat :=
  if expField a ≥ expField b then align fold (extendedSig b) (expField a - expField b).toNat
  else extendedSig b

/-- The working exponent `we`, the larger exponent field (42_addsub.md R134). -/
def workingExponent (a b : Word) : Int := if expField a ≥ expField b then expField a else expField b

/-- The signed sum `S` (42_addsub.md R136, R137). -/
def signedSum (fold : AlignStickyFold) (a b : Word) : Int :=
  applySign (unpack a).sign (alignedA fold a b) + applySign (unpack b).sign (alignedB fold a b)

/-- `add(a, b)` (42_addsub.md R145): the zero tests, `b` first (R132), then the sum and its rounding; the sum's zero takes no
exponent correction (R138), and the sign is the sum's (R139, R140). -/
def addEngine (fold : AlignStickyFold) (a b : Word) : EngineResult :=
  if isZero b then .word a
  else if isZero a then .word b
  else
    match norm (signedSum fold a b) Config.provisionalExponent with
    | none => .word constructedZero
    | some n => .parts n.sign (n.exponent - 3 + (workingExponent a b - 127 - 23)) n.fraction

/-- `sub(a, b) = add(a, NEG(b))`, the negation before any other step (42_addsub.md R131). -/
def subEngine (fold : AlignStickyFold) (a b : Word) : EngineResult := addEngine fold a (neg b)

/-- ADD under either reading of the sticky fold (00_scope.md R6; 42_addsub.md R145). -/
def execAddWith (fold : AlignStickyFold) (a b : Word) (s : State) : Host.Outcome State Fault Refusal :=
  .next (s.writeY (resultWord (addEngine fold a b)))

/-- SUB under either reading of the sticky fold (00_scope.md R6; 42_addsub.md R146). -/
def execSubWith (fold : AlignStickyFold) (a b : Word) (s : State) : Host.Outcome State Fault Refusal :=
  .next (s.writeY (resultWord (subEngine fold a b)))

/-- ADD: `Y <- A + B` (42_addsub.md R145), with this hardware's sticky fold. -/
def execAdd (a b : Word) (s : State) : Host.Outcome State Fault Refusal := execAddWith Config.alignStickyFold a b s

/-- SUB: `Y <- A - B` (42_addsub.md R146), with this hardware's sticky fold. -/
def execSub (a b : Word) (s : State) : Host.Outcome State Fault Refusal := execSubWith Config.alignStickyFold a b s

end Sys2Proof.Machine
end

