-- ==== Sys2Proof/Machine/Divide.lean ====
section
/-! DEFINITION. The divide engine and the command DIV (44_divide.md; 60_exceptions.md R203). -/

namespace Sys2Proof.Machine

/-- The quotient and the partial remainder (44_divide.md R181). -/
structure Dividing where
  q : Nat
  r : Nat
  deriving DecidableEq, Repr

/-- One iteration: compare and subtract, then shift the remainder (44_divide.md R181; conflict C3). -/
def divStep (D : Nat) (t : Dividing) : Dividing :=
  if t.r ≥ D then { q := (t.q <<< 1) ||| 1, r := (t.r - D) <<< 1 }
  else { q := t.q <<< 1, r := t.r <<< 1 }

/-- The first `n` iterations of the restoring division (44_divide.md R181). -/
def divLoop (D : Nat) : Nat → Dividing → Dividing
  | 0, t => t
  | n + 1, t => divStep D (divLoop D n t)

/-- The quotient and remainder after 26 iterations (44_divide.md R181). -/
def longDivision (N D : Nat) : Dividing := divLoop D Config.divideIterations { q := 0, r := N }

/-- `q2`: the quotient with its sticky slot (44_divide.md R182). -/
def quotientWithSticky (t : Dividing) : Nat := (t.q <<< 1) ||| (t.r != 0).toNat

/-- `div(a, b)` (44_divide.md R190): no check of the divisor (R180); a zero quotient takes the XOR sign and no exponent
correction (R183). -/
def divEngine (a b : Word) : EngineResult :=
  match norm (quotientWithSticky (longDivision (sig a) (sig b)) : Int) Config.provisionalExponent with
  | none => .word (signedZero (signXor a b))
  | some n =>
    .parts (signXor a b) (n.exponent - 3 - 23 + (expField a - Config.bias) - (expField b - Config.bias)) n.fraction

/-- DIV: `Y <- A / B` (44_divide.md R190). -/
def execDiv (a b : Word) (s : State) : Host.Outcome State Fault Refusal :=
  .next (s.writeY (resultWord (divEngine a b)))

end Sys2Proof.Machine
end

