-- ==== Sys2Proof/Machine/Multiply.lean ====
section
/-! DEFINITION. The multiply engine and the command MUL (43_multiply.md). -/

namespace Sys2Proof.Machine

/-- The product accumulator `P` after the first `n` steps of shift-and-add, bits `0 .. n-1` of `sb` (43_multiply.md R161). -/
def shiftAdd (sa sb : Nat) : Nat → Nat
  | 0 => 0
  | n + 1 => if sb.testBit n then shiftAdd sa sb n + (sa <<< n) else shiftAdd sa sb n

/-- The product `P` of two significands, 24 steps (43_multiply.md R161). -/
def product (sa sb : Nat) : Nat := shiftAdd sa sb Config.multiplySteps

/-- The window `Q`: the product without its low 20 bits, their OR folded into bit 0 (43_multiply.md R162). -/
def productWindow (p : Nat) : Nat := (p >>> Config.productCut) ||| (anyBitBelow p Config.productCut).toNat

/-- `mul(a, b)` (43_multiply.md R170): no special case; a zero window takes the XOR sign and no exponent correction (R163). -/
def mulEngine (a b : Word) : EngineResult :=
  match norm (productWindow (product (sig a) (sig b)) : Int) Config.provisionalExponent with
  | none => .word (signedZero (signXor a b))
  | some n =>
    .parts (signXor a b) (n.exponent - 3 - 23 + (expField a - Config.bias) + (expField b - Config.bias)) n.fraction

/-- MUL: `Y <- A * B` (43_multiply.md R170). -/
def execMul (a b : Word) (s : State) : Host.Outcome State Fault Refusal :=
  .next (s.writeY (resultWord (mulEngine a b)))

end Sys2Proof.Machine
end

