-- ==== Sys2Proof/Machine/Step.lean ====
section
/-! DEFINITION. One step: one whole command, from its acceptance to its result (70_reset_and_hazards.md R233). -/

namespace Sys2Proof.Machine

/-- One atomic step. With no command waiting the core waits (70_reset_and_hazards.md R231); a reserved command is refused
(30_encoding.md R64); any other command runs and delivers its `Y` (R233, R234). -/
def step (s : State) : Host.Outcome State Fault Refusal :=
  match s.fetch with
  | .nothing => .next s
  | .stopped r => .refused r
  | .command c rest =>
    match decode c with
    | .error (.reservedOp op) => .refused (.reservedOp op)
    | .ok i => exec i rest

/-- The state in which the next step runs the command whose bits are `w`, numbered as spec/opcode_table.json numbers them:
the command stands as accepted and oldest, as a host that presented it would leave it (DESIGN CHOICE, safe: log entry 2).
A number with a bit above bit 66 is no command, and nothing is stored (DEDUCED, safe: log entry 10). -/
def State.withFetchWord (s : State) (nbits w : Nat) : State :=
  if w % 2 ^ nbits < 2 ^ 67 then
    { s with inFlight := BitVec.ofNat 67 (w % 2 ^ nbits) :: s.inFlight }
  else s

end Sys2Proof.Machine
end

