-- ==== Sys2Proof/Machine/Assembler.lean ====
section
/-! DEFINITION. The text of the spec's assembly lines: reading and printing (30_encoding.md R70 to R73). Text is a list of
characters. -/

namespace Sys2Proof.Machine

/-- The sixteen hexadecimal digits in order, in capitals (30_encoding.md R71; log entry 8). For statements; no printer uses it. -/
def hexAlphabet : List Char := ['0', '1', '2', '3', '4', '5', '6', '7', '8', '9', 'A', 'B', 'C', 'D', 'E', 'F']

/-- A finished token, if it has characters. -/
def flushToken (cur : List Char) : List (List Char) := if cur.isEmpty then [] else [cur]

/-- Tokens of a line: runs of characters between spaces, with `,` and `=` tokens of their own. -/
def tokens : List Char → List Char → List (List Char)
  | [], cur => flushToken cur
  | c :: cs, cur =>
    if c = ' ' then flushToken cur ++ tokens cs []
    else if c = ',' ∨ c = '=' then flushToken cur ++ [c] :: tokens cs []
    else tokens cs (cur ++ [c])

/-- The value of a decimal digit. -/
def decimalDigit? (c : Char) : Option Nat :=
  if 48 ≤ c.toNat ∧ c.toNat ≤ 57 then some (c.toNat - 48) else none

/-- The value of a hexadecimal digit, in either case (DESIGN CHOICE, safe: log entry 8). -/
def hexDigit? (c : Char) : Option Nat :=
  if 48 ≤ c.toNat ∧ c.toNat ≤ 57 then some (c.toNat - 48)
  else if 65 ≤ c.toNat ∧ c.toNat ≤ 70 then some (c.toNat - 55)
  else if 97 ≤ c.toNat ∧ c.toNat ≤ 102 then some (c.toNat - 87)
  else none

/-- The number whose digits in a base are read by `digit?`, most significant first. -/
def readDigits (base : Nat) (digit? : Char → Option Nat) : List Char → Nat → Option Nat
  | [], acc => some acc
  | c :: cs, acc =>
    match digit? c with
    | some v => readDigits base digit? cs (acc * base + v)
    | none => none

/-- A letter or a digit. -/
def nameChar (c : Char) : Bool :=
  (48 ≤ c.toNat && c.toNat ≤ 57) || (65 ≤ c.toNat && c.toNat ≤ 90) || (97 ≤ c.toNat && c.toNat ≤ 122)

/-- A host value name: `v` and at least one letter or digit (30_encoding.md R72; DEDUCED, safe: log entry 7). -/
def parseName (t : List Char) : Option ValueName :=
  match t with
  | 'v' :: c :: cs => if (c :: cs).all nameChar then some t else none
  | _ => none

/-- A word `0xhhhhhhhh`: eight hexadecimal digits (30_encoding.md R70). -/
def parseHexWord (t : List Char) : Option Word :=
  match t with
  | '0' :: 'x' :: ds =>
    if ds.length = 8 then (readDigits 16 hexDigit? ds 0).map (BitVec.ofNat 32) else none
  | _ => none

/-- A decimal integer (30_encoding.md R70); its range is `AsmOperand.integerForm`'s to check. -/
def parseDecimal (t : List Char) : Option Int :=
  match t with
  | [] => none
  | ['-'] => none
  | '-' :: ds => (readDigits 10 decimalDigit? ds 0).map fun n => -(n : Int)
  | ds => (readDigits 10 decimalDigit? ds 0).map fun n => (n : Int)

/-- One operand: a word, a name or a decimal (30_encoding.md R70). -/
def parseOperand (t : List Char) : Option AsmOperand :=
  match parseHexWord t with
  | some w => some (.hex w)
  | none =>
    match parseName t with
    | some v => some (.name v)
    | none => (parseDecimal t).map .decimal

/-- A mnemonic in capitals; mnemonics are case-insensitive (30_encoding.md R70). -/
def capitals (t : List Char) : List Char :=
  t.map fun c => if 97 ≤ c.toNat ∧ c.toNat ≤ 122 then Char.ofNat (c.toNat - 32) else c

/-- The mnemonic of a command of two operands (30_encoding.md R62). -/
def parseTwoOp (t : List Char) : Option TwoOp :=
  if capitals t = ['A', 'D', 'D'] then some .add
  else if capitals t = ['S', 'U', 'B'] then some .sub
  else if capitals t = ['M', 'U', 'L'] then some .mul
  else if capitals t = ['D', 'I', 'V'] then some .div
  else none

/-- The command these tokens spell (30_encoding.md R70), before the operand forms are checked. -/
def commandOfTokens (ts : List (List Char)) : Option AsmCommand :=
  match ts with
  | [m, a] =>
    if capitals m = ['I', '2', 'F'] then (parseOperand a).map .i2f else none
  | [m, a, [','], b] =>
    match parseTwoOp m, parseOperand a, parseOperand b with
    | some op, some x, some y => some (.two op x y)
    | _, _, _ => none
  | _ => none

/-- The text of one command, `MNEMONIC a, b` or `I2F a` (30_encoding.md R70). -/
def parseCommand (text : List Char) : Option AsmCommand :=
  match commandOfTokens (tokens text []) with
  | some c => if c.wellFormed then some c else none
  | none => none

/-- The line these tokens spell (30_encoding.md R72, R73), before the operand forms are checked. -/
def lineOfTokens (ts : List (List Char)) : Option AsmLine :=
  match ts with
  | [m, x] => if capitals m = ['T', 'O', 'F', 'L', 'O', 'A', 'T'] then (parseOperand x).map .tofloat else none
  | d :: ['='] :: [m, x] =>
    match parseName d with
    | none => none
    | some v =>
      if capitals m = ['M', 'O', 'V'] then (parseOperand x).map (.mov v)
      else if capitals m = ['F', 'N', 'E', 'G'] then (parseOperand x).map (.fneg v)
      else (commandOfTokens [m, x]).map (.command v)
  | d :: ['='] :: rest =>
    match parseName d with
    | none => none
    | some v => (commandOfTokens rest).map (.command v)
  | _ => none

/-- The text of one line of a host program (30_encoding.md R72, R73). -/
def parseLine (text : List Char) : Option AsmLine :=
  match lineOfTokens (tokens text []) with
  | some l => if l.wellFormed then some l else none
  | none => none

/-- Decimal digits, at most `fuel` of them. -/
def decimalDigits : Nat → Nat → List Char
  | 0, _ => []
  | fuel + 1, n => if n < 10 then [hexDigit n] else decimalDigits fuel (n / 10) ++ [hexDigit (n % 10)]

/-- An operand as 30_encoding.md R70 writes it; a decimal of R70 has at most ten digits. -/
def printOperand : AsmOperand → List Char
  | .hex w => '0' :: 'x' :: hexDigits 8 w.toNat
  | .decimal n => if n < 0 then '-' :: decimalDigits 10 n.natAbs else decimalDigits 10 n.natAbs
  | .name v => v

/-- The mnemonic of a command of two operands (30_encoding.md R62). -/
def printTwoOp : TwoOp → List Char
  | .add => ['A', 'D', 'D']
  | .sub => ['S', 'U', 'B']
  | .mul => ['M', 'U', 'L']
  | .div => ['D', 'I', 'V']

/-- A command as 30_encoding.md R70 writes it; I2F has one operand (R65). -/
def printCommand : AsmCommand → List Char
  | .two m a b => printTwoOp m ++ ' ' :: printOperand a ++ ',' :: ' ' :: printOperand b
  | .i2f a => 'I' :: '2' :: 'F' :: ' ' :: printOperand a

/-- A line as 30_encoding.md R72 and R73 write it. -/
def printLine : AsmLine → List Char
  | .command d c => d ++ ' ' :: '=' :: ' ' :: printCommand c
  | .mov d x => d ++ ' ' :: '=' :: ' ' :: 'M' :: 'O' :: 'V' :: ' ' :: printOperand x
  | .fneg d x => d ++ ' ' :: '=' :: ' ' :: 'F' :: 'N' :: 'E' :: 'G' :: ' ' :: printOperand x
  | .tofloat x => 'T' :: 'O' :: 'F' :: 'L' :: 'O' :: 'A' :: 'T' :: ' ' :: printOperand x

/-- An instruction as a command in assembly syntax, words in hexadecimal (30_encoding.md R65, R70). -/
def asmOfInstr : Instr → AsmCommand
  | .add a b => .two .add (.hex a) (.hex b)
  | .sub a b => .two .sub (.hex a) (.hex b)
  | .mul a b => .two .mul (.hex a) (.hex b)
  | .div a b => .two .div (.hex a) (.hex b)
  | .i2f a => .i2f (.hex a)

end Sys2Proof.Machine
end

