-- ==== Sys2Proof/Machine/Value.lean ====
section
/-! DEFINITION. The numeric value of a word and rounding to 24 significant bits. They explain the rules and state
properties; no meaning computes them (40_representation.md R88; 41_normalize.md R110). The closed forms are the rules' own
formulas without the loops. -/

namespace Sys2Proof.Machine

/-- `val(w)` (40_representation.md R88): an exponent field of 255 is an ordinary number, one of 0 is zero. -/
def wordValue (w : Word) : ℚ :=
  if isZero w then 0
  else (if (unpack w).sign = 1#1 then -1 else 1) * (2 ^ 23 + ((unpack w).fraction.toNat : ℚ)) * (2 : ℚ) ^ (expField w - 150)

/-- The bit length `L` of a positive number, `2^(L-1) <= x < 2^L` (41_normalize.md R110). -/
def bitLength (x : Nat) : Nat := x.log2 + 1

/-- Division by `2^k` to the nearest integer, ties to the even one (41_normalize.md R110). -/
def divPow2Even (x k : Nat) : Nat :=
  if 2 * (x % 2 ^ k) < 2 ^ k then x / 2 ^ k
  else if 2 ^ k < 2 * (x % 2 ^ k) then x / 2 ^ k + 1
  else if (x / 2 ^ k) % 2 = 0 then x / 2 ^ k
  else x / 2 ^ k + 1

/-- `rne24(x)`: a number rounded to 24 significant bits, to nearest, ties to the even 24-bit value (41_normalize.md R110). -/
def rne24 (x : Nat) : Nat :=
  if bitLength x ≤ 24 then x else divPow2Even x (bitLength x - 24) * 2 ^ (bitLength x - 24)

/-- A rational rounded to the nearest integer, ties to the even one. -/
def roundTiesEven (x : ℚ) : ℤ :=
  if x - ⌊x⌋ < 1 / 2 then ⌊x⌋
  else if 1 / 2 < x - ⌊x⌋ then ⌊x⌋ + 1
  else if ⌊x⌋ % 2 = 0 then ⌊x⌋
  else ⌊x⌋ + 1

/-- `r` is `x` rounded to 24 significant bits, round-to-nearest, ties to even: 0 for 0; otherwise `x` is scaled by the power
of two that puts its magnitude in `2^23 .. 2^24`, rounded to an integer there, and scaled back (42_addsub.md R141;
43_multiply.md R166; 44_divide.md R186). -/
def IsRounded24 (x r : ℚ) : Prop :=
  (x = 0 ∧ r = 0) ∨
    ∃ t : ℤ, (2 : ℚ) ^ (t + 23) ≤ |x| ∧ |x| < (2 : ℚ) ^ (t + 24) ∧ r = (roundTiesEven (x / (2 : ℚ) ^ t) : ℚ) * (2 : ℚ) ^ t

/-- The range of every intermediate exponent of every command (10_state.md R30). -/
abbrev exponentFits (E : Int) : Prop := -154 ≤ E ∧ E ≤ 385

/-- The rounding carry `c`: 1 exactly when rounding carried out of 24 bits (41_normalize.md R110). -/
def roundCarry (x : Nat) : Nat := if rne24 x = 2 ^ bitLength x then 1 else 0

/-- The 24 bits kept of a magnitude, before a rounding carry is put right (41_normalize.md R110). -/
def keptBits (x : Nat) : Nat :=
  if bitLength x ≤ 24 then x <<< (24 - bitLength x) else divPow2Even x (bitLength x - 24)

/-- The closed form of `NORM` for a nonzero input, `E = e0 + L - 24 + c` (41_normalize.md R110). -/
def closedNorm (m e0 : Int) : Normalized where
  sign := if m < 0 then 1#1 else 0#1
  exponent := e0 + (bitLength m.natAbs : Int) - 24 + (roundCarry m.natAbs : Int)
  fraction := BitVec.ofNat 23 (keptBits m.natAbs)

/-- The closed form of alignment: the shifted value and the OR of the bits shifted out (42_addsub.md R135). -/
def closedAlign (fold : AlignStickyFold) (x d : Nat) : Nat := foldSticky fold (x >>> d) (anyBitBelow x d)

/-- The signed sum without the alignment loop: the operand of the smaller exponent is aligned by the difference of the
exponents (42_addsub.md R133 to R137). -/
def closedSum (fold : AlignStickyFold) (a b : Word) : Int :=
  applySign (unpack a).sign (closedAlign fold (8 * sig a) (expField b - expField a).toNat) +
    applySign (unpack b).sign (closedAlign fold (8 * sig b) (expField a - expField b).toNat)

/-- ADD's result in closed form, `E' = we + L - 27 + c` (42_addsub.md R132, R138, R139). -/
def closedAdd (fold : AlignStickyFold) (a b : Word) : Word :=
  if expField b = 0 then a
  else if expField a = 0 then b
  else if closedSum fold a b = 0 then 0#32
  else pack (closedNorm (closedSum fold a b) 150).sign
    (max (expField a) (expField b) + (bitLength (closedSum fold a b).natAbs : Int) - 27
      + (roundCarry (closedSum fold a b).natAbs : Int))
    (closedNorm (closedSum fold a b) 150).fraction

/-- The product window without the loop (43_multiply.md R161, R162). -/
def closedWindow (a b : Word) : Nat := productWindow (sig a * sig b)

/-- MUL's result in closed form (43_multiply.md R163, R164). -/
def closedMul (a b : Word) : Word :=
  if sig a * sig b = 0 then signedZero (signXor a b)
  else pack (signXor a b)
    (expField a + expField b - 154 + (bitLength (closedWindow a b) : Int) + (roundCarry (closedWindow a b) : Int))
    (closedNorm (closedWindow a b) 150).fraction

/-- `q2` without the loop, for a dividend below twice the divisor: the quotient and its sticky (44_divide.md R181, R182). -/
def closedQuotient (N D : Nat) : Nat := 2 * (N * 2 ^ 25 / D) + (if N * 2 ^ 25 % D = 0 then 0 else 1)

/-- DIV's result in closed form. A dividend of at least twice the divisor, which takes a divisor with exponent field 0, makes
every quotient bit 1 (60_exceptions.md R203; for a tiny divisor DEDUCED from the loop of 44_divide.md R181). -/
def closedDiv (a b : Word) : Word :=
  if 2 * sig b ≤ sig a then pack (signXor a b) (expField a - expField b + 128) 0#23
  else if sig a = 0 then signedZero (signXor a b)
  else pack (signXor a b)
    (expField a - expField b + 100 + (bitLength (closedQuotient (sig a) (sig b)) : Int)
      + (roundCarry (closedQuotient (sig a) (sig b)) : Int))
    (closedNorm (closedQuotient (sig a) (sig b)) 150).fraction

end Sys2Proof.Machine
end

