-- ==== Sys2Proof/Machine/HostProgram.lean ====
section
/-! DEFINITION. The host's side of the interface: issuing commands and keeping their results, host programs and
pseudo-operations (30_encoding.md R70 to R73; 95_test_vectors.md L3). Named values are host state, not core state
(10_state.md R22). -/

namespace Sys2Proof.Machine

/-- `k` steps of the core, stopping at the first fault or refusal. A refusal is kept for the rest of the run
(30_encoding.md R64). -/
def runSteps (k : Nat) (s : State) : Host.Outcome State Fault Refusal := Sys2Proof.core.run k s

/-- The host presents one command and waits until that command's own result is delivered, after the results of the commands
accepted before it (70_reset_and_hazards.md R234). -/
def issue (c : CommandWord) (s : State) : Host.Outcome State Fault Refusal :=
  runSteps ((s.drive c).inFlight.length + 1) (s.drive c)

/-- The host issues commands one after another and keeps each `Y` (10_state.md R22, R29). -/
def issueAll : List CommandWord → State → Host.Outcome (List Word × State) Fault Refusal
  | [], s => .next ([], s)
  | c :: cs, s =>
    match issue c s with
    | .fault f => .fault f
    | .refused r => .refused r
    | .next s' =>
      match s'.readY with
      | .error f => .fault f
      | .ok w =>
        match issueAll cs s' with
        | .fault f => .fault f
        | .refused r => .refused r
        | .next (ws, s'') => .next (w :: ws, s'')

/-- The host with its named values (30_encoding.md R72), beside the core it drives. -/
structure HostState where
  core : State
  values : List (ValueName × Word)
  deriving DecidableEq, Repr

/-- The start of every host program: the core after reset, no named values (95_test_vectors.md L3). -/
def HostState.start : HostState where
  core := State.reset
  values := []

/-- The word an earlier line named; a fault where no line wrote the name (30_encoding.md R72; U9). -/
def HostState.readName (h : HostState) (v : ValueName) : Except Fault Word :=
  match h.values.lookup v with
  | some w => .ok w
  | none => .error .unwrittenName

/-- Has an earlier line written this name? -/
def HostState.written (h : HostState) (v : ValueName) : Bool := (h.values.lookup v).isSome

/-- The line's result under its name. -/
def HostState.bind (h : HostState) (v : ValueName) (w : Word) : HostState := { h with values := (v, w) :: h.values }

/-- The word of an operand; a decimal is its 32-bit two's complement (30_encoding.md R70). -/
def operandWord (x : AsmOperand) (h : HostState) : Except Fault Word :=
  match x with
  | .hex w => .ok w
  | .decimal n => .ok (BitVec.ofInt 32 n)
  | .name v => h.readName v

/-- The instruction a mnemonic of two operands names (30_encoding.md R62, R70). -/
def twoOpInstr (m : TwoOp) (a b : Word) : Instr :=
  match m with
  | .add => .add a b
  | .sub => .sub a b
  | .mul => .mul a b
  | .div => .div a b

/-- The instruction of an assembly command, its operands read from the host (30_encoding.md R70, R72). -/
def assemble (c : AsmCommand) (h : HostState) : Except Fault Instr :=
  match c with
  | .two m a b =>
    match operandWord a h with
    | .error f => .error f
    | .ok x =>
      match operandWord b h with
      | .error f => .error f
      | .ok y => .ok (twoOpInstr m x y)
  | .i2f a =>
    match operandWord a h with
    | .error f => .error f
    | .ok x => .ok (.i2f x)

/-- A command line: assemble, issue, wait, keep `Y` under the name (30_encoding.md R72). -/
def runCommandLine (d : ValueName) (c : AsmCommand) (h : HostState) : Host.Outcome HostState Fault Refusal :=
  match assemble c h with
  | .error f => .fault f
  | .ok i =>
    match issue (encode i) h.core with
    | .fault f => .fault f
    | .refused r => .refused r
    | .next s =>
      match s.readY with
      | .error f => .fault f
      | .ok w => .next (HostState.bind { h with core := s } d w)

/-- A pseudo-operation that names a word: no command is issued (30_encoding.md R73). -/
def nameWord (d : ValueName) (x : AsmOperand) (f : Word → Word) (h : HostState) : Host.Outcome HostState Fault Refusal :=
  match operandWord x h with
  | .error e => .fault e
  | .ok w => .next (h.bind d (f w))

/-- Does 30_encoding.md R72 admit this line here: well-formed, and its name not written before? -/
def lineAdmitted (l : AsmLine) (h : HostState) : Bool :=
  l.wellFormed &&
    match l.dest? with
    | some d => !h.written d
    | none => true

/-- One line of a host program (30_encoding.md R72, R73). -/
def runLine (l : AsmLine) (h : HostState) : Host.Outcome HostState Fault Refusal :=
  if lineAdmitted l h then
    match l with
    | .command d c => runCommandLine d c h
    | .mov d x => nameWord d x id h
    | .fneg d x => nameWord d x neg h
    | .tofloat x =>
      match operandWord x h with
      | .error e => .fault e
      | .ok _ => .next h
  else .refused .illFormedLine

/-- A host program, line by line (30_encoding.md R72). -/
def runProgram : AsmProgram → HostState → Host.Outcome HostState Fault Refusal
  | [], h => .next h
  | l :: ls, h =>
    match runLine l h with
    | .next h' => runProgram ls h'
    | .fault f => .fault f
    | .refused r => .refused r

end Sys2Proof.Machine
end

