-- ==== Sys2Proof/Safety.lean ====
section
/-! DEFINITION. What a result is a function of, and what counts as a safe state: every command that waits spells an
operation, so that no step stops (60_exceptions.md R200; 30_encoding.md R64). -/

namespace Sys2Proof.Machine

/-- What the engine of a command gives: a function of the op code, the operands and `ALIGN_STICKY_FOLD` alone
(10_state.md R20). -/
def instrEngine (fold : AlignStickyFold) : Instr → EngineResult
  | .add a b => addEngine fold a b
  | .sub a b => subEngine fold a b
  | .mul a b => mulEngine a b
  | .div a b => divEngine a b
  | .i2f a => i2fEngine a

/-- The result `Y` of a command on this hardware (10_state.md R20). -/
def instrResult (i : Instr) : Word := resultWord (instrEngine Config.alignStickyFold i)

/-- The result of a command word, where it spells an operation (30_encoding.md R62, R64). -/
def commandResult (c : CommandWord) : Option Word :=
  match decode c with
  | .ok i => some (instrResult i)
  | .error _ => none

/-- What stands on the inputs does not stop the core: nothing, or a command that spells an operation. -/
def Port.admitted : Port → Bool
  | .idle => true
  | .issued c => c.admitted
  | .inputsChanged => false
  | .abandoned => false

/-- Every command that waits spells an operation (30_encoding.md R64), and the host kept its obligations on the inputs
(70_reset_and_hazards.md R230, R235). -/
def State.admitted (s : State) : Bool := s.inFlight.all CommandWord.admitted && s.port.admitted

/-- A run of any length from here goes on: no fault, no refusal. -/
def State.runsOn (s : State) : Prop := ∀ k : Nat, ∃ t : State, runSteps k s = .next t

end Sys2Proof.Machine
end

