-- ==== Sys2Proof/Certificates/Slice0/Obligations.lean ====
section
/-! DEFINITION. The statements for the provers. Each docstring names the rule of spec/ a statement formalises, or the
section it is derived from. -/

open Sys2Proof Sys2Proof.Machine

/-! ### Command words -/

/-- 30_encoding.md R60: the three fields of the command word, and the same command on three separate inputs. -/
def Obligations.CommandWordHasThreeFields : Prop :=
  (∀ (op : BitVec 3) (a b : Word),
    (CommandWord.ofFields op a b).toNat = op.toNat * 2 ^ 64 + a.toNat * 2 ^ 32 + b.toNat ∧
    (CommandWord.ofFields op a b).op = op ∧ (CommandWord.ofFields op a b).a = a ∧ (CommandWord.ofFields op a b).b = b) ∧
  (∀ c : CommandWord, CommandWord.ofFields c.op c.a c.b = c) ∧
  (∀ (s : State) (c : CommandWord), s.drivePorts c.op c.a c.b = s.drive c)

/-- 30_encoding.md R66: the decoder is total and follows the op code map; the other three op codes are refused. -/
def Obligations.DecoderFollowsOpcodeMap : Prop :=
  ∀ c : CommandWord,
    (c.op = 0b000#3 → decode c = .ok (.add c.a c.b)) ∧
    (c.op = 0b001#3 → decode c = .ok (.sub c.a c.b)) ∧
    (c.op = 0b010#3 → decode c = .ok (.mul c.a c.b)) ∧
    (c.op = 0b011#3 → decode c = .ok (.div c.a c.b)) ∧
    (c.op = 0b100#3 → decode c = .ok (.i2f c.a)) ∧
    (c.op = 0b101#3 ∨ c.op = 0b110#3 ∨ c.op = 0b111#3 → decode c = .error (.reservedOp c.op))

/-- Decode and encode agree, in both directions: the decoder gives back every encoded instruction, and the words it reads as
an instruction are that instruction's encoding, I2F's with any `B` (30_encoding.md, section 1). -/
def Obligations.DecodeInvertsEncode : Prop :=
  ∀ (c : CommandWord) (i : Instr),
    decode (encode i) = .ok i ∧
    (decode c = .ok i ↔ c = encode i ∨ ∃ a b : Word, i = .i2f a ∧ c = CommandWord.ofFields 0b100#3 a b)

/-- A few words written out from the op code map (30_encoding.md, sections 1 and 2; 95_test_vectors.md). -/
def Obligations.SampleWordsDecode : Prop :=
  decode 0x041200000C0000000#67 = .ok (.add 0x41200000#32 0xC0000000#32) ∧
  decode 0x13F8000003F7FFFFF#67 = .ok (.sub 0x3F800000#32 0x3F7FFFFF#32) ∧
  decode 0x23F80000040400000#67 = .ok (.mul 0x3F800000#32 0x40400000#32) ∧
  decode 0x34120000040000000#67 = .ok (.div 0x41200000#32 0x40000000#32) ∧
  decode 0x40000000AFFFFFFFF#67 = .ok (.i2f 0x0000000A#32) ∧
  decode 0x53F8000003F800000#67 = .error (.reservedOp 0b101#3)

/-- For I2F the `B` field is ignored by the result and by the decoder, is written as zero by the encoder, and is not printed:
the one operand printed is `A` (30_encoding.md, section 2, operand assembly), the mnemonic and its eight hexadecimal digits being
the whole text (30_encoding.md, section 3, the form `0xhhhhhhhh`). That the digits are capitals, that the operand is printed in
hexadecimal and not in decimal, and the one space before it, are the model's choice (log entry 8, DESIGN CHOICE). -/
def Obligations.I2fIgnoresSecondField : Prop :=
  (∀ a b b' : Word, commandResult (CommandWord.ofFields 0b100#3 a b) = commandResult (CommandWord.ofFields 0b100#3 a b')) ∧
  (∀ a : Word, asmOfInstr (.i2f a) = .i2f (.hex a) ∧ (printCommand (asmOfInstr (.i2f a))).length = 14 ∧
    (printCommand (asmOfInstr (.i2f a))).take 6 = ['I', '2', 'F', ' ', '0', 'x'] ∧
    ∀ k : Nat, k < 8 → (printCommand (asmOfInstr (.i2f a)))[6 + k]? = hexAlphabet[a.toNat / 16 ^ (7 - k) % 16]?) ∧
  (∀ a : Word, (encode (.i2f a)).b = 0x00000000#32) ∧
  (∀ a b : Word, decode (CommandWord.ofFields 0b100#3 a b) = .ok (.i2f a))

/-- The printed form of a command is `op_AAAAAAAA_BBBBBBBB`: 19 characters, the hexadecimal digit of `OP`, the eight digits of `A`
and the eight of `B`, each most significant first, with `_` between, and it determines the command (30_encoding.md,
section 3). -/
def Obligations.PrintedFormDeterminesCommand : Prop :=
  (∀ c : CommandWord,
    (printEncoded c).length = 19 ∧ (printEncoded c)[1]? = some '_' ∧ (printEncoded c)[10]? = some '_' ∧
    (printEncoded c)[0]? = hexAlphabet[c.op.toNat]? ∧
    ∀ k : Nat, k < 8 →
      (printEncoded c)[2 + k]? = hexAlphabet[c.a.toNat / 16 ^ (7 - k) % 16]? ∧
      (printEncoded c)[11 + k]? = hexAlphabet[c.b.toNat / 16 ^ (7 - k) % 16]?) ∧
  (∀ c d : CommandWord, printEncoded c = printEncoded d → c = d)

/-- The assembly text of every instruction reads back as that instruction (30_encoding.md, section 3). The text's spacing and
capitals, and that its operands are printed in hexadecimal, are the model's choice (log entry 8, DESIGN CHOICE). -/
def Obligations.AssemblyTextReadsBack : Prop :=
  ∀ (i : Instr) (h : HostState),
    parseCommand (printCommand (asmOfInstr i)) = some (asmOfInstr i) ∧ assemble (asmOfInstr i) h = .ok i

/-! ### Words -/

/-- 40_representation.md R81: unpacking slices bit 31, bits 30..23 and bits 22..0; every word has exactly one unpacking and
every field value is allowed. -/
def Obligations.UnpackSlicesEveryWordOnce : Prop :=
  (∀ w : Word,
    (unpack w).sign.toNat = w.toNat / 2 ^ 31 ∧ (unpack w).exponent.toNat = w.toNat / 2 ^ 23 % 2 ^ 8 ∧
    (unpack w).fraction.toNat = w.toNat % 2 ^ 23) ∧
  (∀ v : FloatValue, ∃! w : Word, unpack w = v)

/-- 40_representation.md R85: packing writes the sign, the exponent modulo 256 and the fraction, for any integer exponent. -/
def Obligations.PackWritesExponentModulo256 : Prop :=
  ∀ (s : BitVec 1) (E : Int) (f : BitVec 23),
    (unpack (pack s E f)).sign = s ∧ (unpack (pack s E f)).fraction = f ∧ expField (pack s E f) = E % 256

/-- 40_representation.md R86: negation flips the sign bit and leaves every other bit, for every word. -/
def Obligations.NegationFlipsOnlyTheSign : Prop :=
  ∀ w : Word, neg w = w ^^^ 0x80000000#32 ∧ (neg w).getLsbD 31 = !w.getLsbD 31 ∧
    ∀ k : Nat, k ≠ 31 → (neg w).getLsbD k = w.getLsbD k

/-- 40_representation.md R84: the implied leading one stands only above a nonzero exponent field. -/
def Obligations.SignificandHasImpliedOneOnlyWhenNonzero : Prop :=
  ∀ w : Word,
    ((unpack w).exponent ≠ 0#8 → sig w = 2 ^ 23 + (unpack w).fraction.toNat ∧ 2 ^ 23 ≤ sig w ∧ sig w ≤ 2 ^ 24 - 1) ∧
    ((unpack w).exponent = 0#8 → sig w = (unpack w).fraction.toNat ∧ sig w ≤ 2 ^ 23 - 1)

/-! ### The normalizing rounding engine and I2F -/

/-- 41_normalize.md R101: zero, and only zero, gives ZERO, and the zero it packs to is the word 0. -/
def Obligations.NormalizerGivesZeroForZeroOnly : Prop :=
  (∀ m e0 : Int, norm m e0 = none ↔ m = 0) ∧
  (∀ a : Word, sext32 a = 0 → resultWord (i2fEngine a) = 0x00000000#32)

/-- 41_normalize.md R103: after `k` right shifts the guard is bit `k-1` of the magnitude, the round bit is bit `k-2` and the
sticky is the OR of bits `k-3 .. 0`; the loop runs until the magnitude is below 2^24. -/
def Obligations.RightNormalizationGathersDiscardedBits : Prop :=
  (∀ n : NormWork,
    (normShiftRight n).st = (n.st || n.gr.getLsbD 0) ∧ (normShiftRight n).gr.getLsbD 1 = n.M.testBit 0 ∧
    (normShiftRight n).gr.getLsbD 0 = n.gr.getLsbD 1 ∧ (normShiftRight n).M = n.M / 2 ∧ (normShiftRight n).E = n.E + 1) ∧
  (∀ m e0 : Int, m ≠ 0 → ∃ k : Nat,
    k = bitLength m.natAbs - 24 ∧
    (normRight m.natAbs.log2 (normStart m e0)).M = m.natAbs / 2 ^ k ∧
    (normRight m.natAbs.log2 (normStart m e0)).M < 2 ^ 24 ∧
    (normRight m.natAbs.log2 (normStart m e0)).E = e0 + k ∧
    (normRight m.natAbs.log2 (normStart m e0)).gr.getLsbD 1 = (decide (1 ≤ k) && m.natAbs.testBit (k - 1)) ∧
    (normRight m.natAbs.log2 (normStart m e0)).gr.getLsbD 0 = (decide (2 ≤ k) && m.natAbs.testBit (k - 2)) ∧
    (normRight m.natAbs.log2 (normStart m e0)).st = (decide (3 ≤ k) && anyBitBelow m.natAbs (k - 2)))

/-- 41_normalize.md R104: the left normalization runs only when no right shift ran, with guard, round and sticky 0, and leaves
the magnitude in 2^23 .. 2^24 - 1. -/
def Obligations.LeftNormalizationReachesTheTargetRange : Prop :=
  (∀ n : NormWork, (normShiftLeft n).M = 2 * n.M ∧ (normShiftLeft n).E = n.E - 1) ∧
  (∀ m e0 : Int, m ≠ 0 →
    (2 ^ 23 ≤ (normLeft 23 (normRight m.natAbs.log2 (normStart m e0))).M ∧
      (normLeft 23 (normRight m.natAbs.log2 (normStart m e0))).M < 2 ^ 24) ∧
    ((normRight m.natAbs.log2 (normStart m e0)).M < 2 ^ 23 →
      normRight m.natAbs.log2 (normStart m e0) = normStart m e0 ∧
      (normLeft 23 (normRight m.natAbs.log2 (normStart m e0))).gr = 0b00#2 ∧
      (normLeft 23 (normRight m.natAbs.log2 (normStart m e0))).st = false))

/-- 41_normalize.md R105, R106 and R107: truncate below half, ties to even unless the sticky is set, round up above half. -/
def Obligations.RoundingFollowsGuardRoundSticky : Prop :=
  ∀ n : NormWork,
    (n.gr.toNat < 2 → (normRound n).M = n.M) ∧
    (n.gr = 0b10#2 → (normRound n).M = if n.st = true ∨ n.M % 2 = 1 then n.M + 1 else n.M) ∧
    (n.gr = 0b11#2 → (normRound n).M = n.M + 1)

/-- 41_normalize.md R108: rounding carries out at most to 2^24, and then the magnitude becomes 2^23 and the exponent rises by
one; the engine ends with bit 23 set. -/
def Obligations.CarryIsRenormalizedOnce : Prop :=
  ∀ m e0 : Int, m ≠ 0 → ∃ n : NormWork,
    n = normRound (normLeft 23 (normRight m.natAbs.log2 (normStart m e0))) ∧ n.M ≤ 2 ^ 24 ∧
    (n.M = 2 ^ 24 → (normWork m e0).M = 2 ^ 23 ∧ (normWork m e0).E = n.E + 1) ∧
    (n.M ≠ 2 ^ 24 → (normWork m e0).M = n.M ∧ (normWork m e0).E = n.E) ∧
    2 ^ 23 ≤ (normWork m e0).M ∧ (normWork m e0).M < 2 ^ 24

/-- The engine computes its closed form, and the result is the magnitude rounded to 24 significant bits, ties to even
(41_normalize.md, section 1, the closed form of NORM, which the spec marks as derived). -/
def Obligations.NormalizerRoundsToNearestEven : Prop :=
  ∀ m e0 : Int, m ≠ 0 →
    norm m e0 = some (closedNorm m e0) ∧
    (2 ^ 23 + ((closedNorm m e0).fraction.toNat : ℚ)) * (2 : ℚ) ^ ((closedNorm m e0).exponent - e0) = (rne24 m.natAbs : ℚ) ∧
    (bitLength m.natAbs ≤ 24 → rne24 m.natAbs = m.natAbs ∧ roundCarry m.natAbs = 0)

/-- I2F on every operand: the meaning delivers the word whose value is the integer rounded to 24 significant bits, and its
exponent field is the true one (41_normalize.md, section 2; the spec marks the closed form as derived). -/
def Obligations.I2fRoundsEveryInteger : Prop :=
  ∀ (a : Word) (s : State), ∃ w : Word,
    exec (.i2f a) s = .next (s.writeY w) ∧
    wordValue w = (if sext32 a < 0 then -1 else 1) * (rne24 (sext32 a).natAbs : ℚ) ∧
    (sext32 a = 0 → w = 0x00000000#32) ∧
    (sext32 a ≠ 0 →
      expField w = 126 + (bitLength (sext32 a).natAbs : Int) + (roundCarry (sext32 a).natAbs : Int) ∧
      127 ≤ expField w ∧ expField w ≤ 158)

/-! ### Addition and subtraction -/

/-- 42_addsub.md R132: a second operand with exponent field 0 returns the first unchanged; else a first operand with exponent
field 0 returns the second unchanged; for SUB the second operand is its negation. -/
def Obligations.AddReturnsOtherOperandOfAZero : Prop :=
  ∀ (fold : AlignStickyFold) (a b : Word) (s : State),
    (expField b = 0 → execAddWith fold a b s = .next (s.writeY a) ∧ execSubWith fold a b s = .next (s.writeY a)) ∧
    (expField b ≠ 0 → expField a = 0 →
      execAddWith fold a b s = .next (s.writeY b) ∧ execSubWith fold a b s = .next (s.writeY (neg b)))

/-- Subtraction is addition of the negated second operand, before any other step, under both readings of the sticky fold
(42_addsub.md, section 1). So `x - x` is +0 for a nonzero exponent field and `x` for an exponent field of 0 (42_addsub.md,
section 2, the corner cases of SUB), and `0 - x` negates `x` only when its exponent field is nonzero (30_encoding.md, section 3,
an inference that the spec marks as derived). -/
def Obligations.SubAddsTheNegation : Prop :=
  ∀ (fold : AlignStickyFold) (a b : Word) (s : State),
    execSubWith fold a b s = execAddWith fold a (b ^^^ 0x80000000#32) s ∧
    exec (.sub a b) s = exec (.add a (b ^^^ 0x80000000#32)) s ∧
    (expField a ≠ 0 → exec (.sub a a) s = .next (s.writeY 0x00000000#32)) ∧
    (expField a = 0 → exec (.sub a a) s = .next (s.writeY a)) ∧
    (expField b ≠ 0 → exec (.sub 0x00000000#32 b) s = .next (s.writeY (neg b))) ∧
    (expField b = 0 → exec (.sub 0x00000000#32 b) s = .next (s.writeY 0x00000000#32))

/-- 42_addsub.md R135: the alignment loop in closed form, for both readings of the fold, for the extended significands it is
applied to (three low zero bits, bit 26 set). -/
def Obligations.AlignmentFoldsTheSticky : Prop :=
  ∀ x d : Nat, 2 ^ 26 ≤ x → x < 2 ^ 27 → x % 8 = 0 →
    align .or x d = (x / 2 ^ d) ||| (anyBitBelow x d).toNat ∧
    align .replace x d = x / 2 ^ d - x / 2 ^ d % 2 + (anyBitBelow x d).toNat ∧
    (27 ≤ d → align .or x d = 1) ∧
    (d ≤ 3 → anyBitBelow x d = false ∧ align .or x d = x / 2 ^ d) ∧
    (align .replace x d ≠ align .or x d → 3 ≤ d ∧ x.testBit d = true ∧ anyBitBelow x d = false)

/-- The sum is zero exactly for operands of equal exponent and fraction and opposite sign, and then the result is +0
(42_addsub.md, section 1, exact zero sum; the spec marks the equivalence as derived). -/
def Obligations.SumIsZeroOnlyForOppositeOperands : Prop :=
  ∀ (fold : AlignStickyFold) (a b : Word), expField a ≠ 0 → expField b ≠ 0 →
    (signedSum fold a b = 0 ↔
      expField a = expField b ∧ (unpack a).fraction = (unpack b).fraction ∧ (unpack a).sign ≠ (unpack b).sign) ∧
    (signedSum fold a b = 0 → ∀ s : State, execAddWith fold a b s = .next (s.writeY 0x00000000#32))

/-- ADD on every pair of words delivers its closed form, under both readings of the sticky fold, and changes nothing else
(42_addsub.md, sections 1 and 2). -/
def Obligations.AddDeliversItsClosedForm : Prop :=
  ∀ (fold : AlignStickyFold) (a b : Word) (s : State),
    execAddWith fold a b s = .next (s.writeY (closedAdd fold a b)) ∧
    exec (.add a b) s = .next (s.writeY (closedAdd .or a b))

/-- SUB on every pair of words delivers the closed form of adding the negation, and changes nothing else
(42_addsub.md, sections 1 and 2). -/
def Obligations.SubDeliversItsClosedForm : Prop :=
  ∀ (fold : AlignStickyFold) (a b : Word) (s : State),
    execSubWith fold a b s = .next (s.writeY (closedAdd fold a (neg b))) ∧
    exec (.sub a b) s = .next (s.writeY (closedAdd .or a (neg b)))

/-- ADD of words with nonzero exponent fields is the exact sum rounded to 24 significant bits, ties to even, whenever the true
exponent fits the field; exponent field 255 is an ordinary exponent (42_addsub.md, section 1, accuracy; derived). -/
def Obligations.AddRoundsTheExactSum : Prop :=
  ∀ (a b : Word) (st : State), expField a ≠ 0 → expField b ≠ 0 → ∃ w : Word,
    exec (.add a b) st = .next (st.writeY w) ∧
    (wordValue a + wordValue b = 0 → w = 0x00000000#32) ∧
    (∀ (s : BitVec 1) (E : Int) (f : BitVec 23), addEngine .or a b = .parts s E f → 1 ≤ E → E ≤ 255 →
      IsRounded24 (wordValue a + wordValue b) (wordValue w))

/-- SUB of words with nonzero exponent fields is the exact difference rounded to 24 significant bits, ties to even, whenever
the true exponent fits the field (42_addsub.md, section 1, accuracy; derived). -/
def Obligations.SubRoundsTheExactDifference : Prop :=
  ∀ (a b : Word) (st : State), expField a ≠ 0 → expField b ≠ 0 → ∃ w : Word,
    exec (.sub a b) st = .next (st.writeY w) ∧
    (wordValue a - wordValue b = 0 → w = 0x00000000#32) ∧
    (∀ (s : BitVec 1) (E : Int) (f : BitVec 23), subEngine .or a b = .parts s E f → 1 ≤ E → E ≤ 255 →
      IsRounded24 (wordValue a - wordValue b) (wordValue w))

/-- The literal reading of the sticky fold does not round correctly: some pair with ordinary exponents and result has a sum
that REPLACE misrounds (42_addsub.md, section 1, accuracy; 90_conflicts.md C2). -/
def Obligations.ReplaceFoldMisroundsSomeSum : Prop :=
  ∃ (a b : Word) (s : BitVec 1) (E : Int) (f : BitVec 23),
    (1 ≤ expField a ∧ expField a ≤ 254) ∧ (1 ≤ expField b ∧ expField b ≤ 254) ∧ 3 ≤ |expField a - expField b| ∧
    addEngine .replace a b = .parts s E f ∧ 1 ≤ E ∧ E ≤ 254 ∧
    ¬ IsRounded24 (wordValue a + wordValue b) (wordValue (pack s E f))

/-! ### Multiplication -/

/-- 43_multiply.md R161: shift-and-add over 24 bits is the exact product, below 2^48, at least 2^46 for nonzero exponent fields,
and the same whichever operand drives the loop. -/
def Obligations.ShiftAndAddIsTheExactProduct : Prop :=
  ∀ a b : Word,
    product (sig a) (sig b) = sig a * sig b ∧ product (sig a) (sig b) < 2 ^ 48 ∧
    (expField a ≠ 0 → expField b ≠ 0 → 2 ^ 46 ≤ product (sig a) (sig b)) ∧
    product (sig b) (sig a) = product (sig a) (sig b)

/-- 43_multiply.md R162: the window is below 2^28, its bit 0 is product bit 20 or the sticky, its other bits are the product's
bits from 21 on. -/
def Obligations.ProductWindowKeepsHighBitsAndSticky : Prop :=
  ∀ P : Nat, P < 2 ^ 48 →
    productWindow P < 2 ^ 28 ∧
    (productWindow P).testBit 0 = (P.testBit 20 || decide (∃ k : Fin 20, P.testBit k = true)) ∧
    (∀ k : Nat, (productWindow P).testBit (k + 1) = P.testBit (k + 21))

/-- 43_multiply.md R163: the window is zero exactly when a significand is zero, and MUL then delivers the zero of the XOR
sign. -/
def Obligations.MulByZeroGivesSignedZero : Prop :=
  ∀ a b : Word,
    (productWindow (product (sig a) (sig b)) = 0 ↔ product (sig a) (sig b) = 0) ∧
    (product (sig a) (sig b) = 0 ↔ sig a = 0 ∨ sig b = 0) ∧
    (∀ w : Word, sig w = 0 ↔ (unpack w).exponent = 0#8 ∧ (unpack w).fraction = 0#23) ∧
    (productWindow (product (sig a) (sig b)) = 0 → ∀ s : State, ∃ w : Word,
      exec (.mul a b) s = .next (s.writeY w) ∧ unpack w = ⟨(unpack a).sign ^^^ (unpack b).sign, 0#8, 0#23⟩)

/-- MUL on every pair of words delivers its closed form and changes nothing else (43_multiply.md, sections 1 and 2). -/
def Obligations.MulDeliversItsClosedForm : Prop :=
  ∀ (a b : Word) (s : State), exec (.mul a b) s = .next (s.writeY (closedMul a b))

/-- The true exponent of a product of words with nonzero exponent fields is `ea + eb - 127 + t + c` (43_multiply.md, section 1,
rounding and exponent correction; the spec marks this form as derived). -/
def Obligations.MulExponentOfNonzeroFields : Prop :=
  ∀ a b : Word, expField a ≠ 0 → expField b ≠ 0 → ∃ f : BitVec 23,
    mulEngine a b = .parts (signXor a b)
      (expField a + expField b - 127 + (if 2 ^ 47 ≤ sig a * sig b then 1 else 0)
        + (roundCarry (productWindow (sig a * sig b)) : Int)) f

/-- MUL of words with nonzero exponent fields is the exact product rounded to 24 significant bits, ties to even, whenever the
true exponent fits the field (43_multiply.md, section 1, accuracy; derived). -/
def Obligations.MulRoundsTheExactProduct : Prop :=
  ∀ (a b : Word) (st : State), expField a ≠ 0 → expField b ≠ 0 → ∃ w : Word,
    exec (.mul a b) st = .next (st.writeY w) ∧
    (∀ (s : BitVec 1) (E : Int) (f : BitVec 23), mulEngine a b = .parts s E f → 1 ≤ E → E ≤ 255 →
      IsRounded24 (wordValue a * wordValue b) (wordValue w))

/-! ### Division -/

/-- The long division by a divisor with its implied one gives the quotient and twice the remainder; by any divisor of which
the dividend is at least the double, it gives all ones (44_divide.md, section 1; 60_exceptions.md, section 2; derived). -/
def Obligations.LongDivisionGivesQuotientAndRemainder : Prop :=
  ∀ N D : Nat, N < 2 ^ 24 →
    (2 ^ 23 ≤ D →
      (longDivision N D).q = N * 2 ^ 25 / D ∧ (longDivision N D).r = 2 * (N * 2 ^ 25 - (longDivision N D).q * D)) ∧
    (2 * D ≤ N → (longDivision N D).q = 2 ^ 26 - 1 ∧ ((longDivision N D).r = 0 ↔ N = 0))

/-- 44_divide.md R182: the quotient shifted by one with the inexact bit in its place, below 2^27. -/
def Obligations.QuotientStickyMarksARemainder : Prop :=
  ∀ a b : Word,
    quotientWithSticky (longDivision (sig a) (sig b)) =
      2 * (longDivision (sig a) (sig b)).q + (if (longDivision (sig a) (sig b)).r = 0 then 0 else 1) ∧
    quotientWithSticky (longDivision (sig a) (sig b)) < 2 ^ 27

/-- 44_divide.md R183: the quotient is zero exactly for a zero dividend and a divisor that is not zero, and DIV then delivers
the zero of the XOR sign. -/
def Obligations.DivOfZeroGivesSignedZero : Prop :=
  ∀ a b : Word,
    (quotientWithSticky (longDivision (sig a) (sig b)) = 0 ↔ sig a = 0 ∧ sig b ≠ 0) ∧
    (sig a = 0 → sig b ≠ 0 → ∀ s : State, ∃ w : Word,
      exec (.div a b) s = .next (s.writeY w) ∧ unpack w = ⟨(unpack a).sign ^^^ (unpack b).sign, 0#8, 0#23⟩)

/-- Division by zero delivers `{sa ^ sb, (ea + 128) mod 256, 0}`, whatever the fraction of the dividend
(60_exceptions.md, section 2, division by zero; the spec marks the closed form as derived). -/
def Obligations.DivideByZeroGivesItsClosedForm : Prop :=
  ∀ (a b : Word) (s : State), sig b = 0 → ∃ w : Word,
    exec (.div a b) s = .next (s.writeY w) ∧
    (unpack w).sign = (unpack a).sign ^^^ (unpack b).sign ∧ expField w = (expField a + 128) % 256 ∧
    (unpack w).fraction = 0#23

/-- DIV on every pair of words, tiny and zero divisors among them, delivers its closed form and changes nothing else
(44_divide.md, sections 1 and 2; 60_exceptions.md, section 2). -/
def Obligations.DivDeliversItsClosedForm : Prop :=
  ∀ (a b : Word) (s : State), exec (.div a b) s = .next (s.writeY (closedDiv a b))

/-- The true exponent of a quotient of words with nonzero exponent fields is `ea - eb + 127 - u + c` (44_divide.md, section 1,
rounding and exponent correction; the spec marks this form as derived). -/
def Obligations.DivExponentOfNonzeroFields : Prop :=
  ∀ a b : Word, expField a ≠ 0 → expField b ≠ 0 → ∃ f : BitVec 23,
    divEngine a b = .parts (signXor a b)
      (expField a - expField b + 127 - (if sig a < sig b then 1 else 0)
        + (roundCarry (closedQuotient (sig a) (sig b)) : Int)) f

/-- DIV of words with nonzero exponent fields is the exact quotient rounded to 24 significant bits, ties to even, whenever the
true exponent fits the field (44_divide.md, section 1, accuracy; derived). -/
def Obligations.DivRoundsTheExactQuotient : Prop :=
  ∀ (a b : Word) (st : State), expField a ≠ 0 → expField b ≠ 0 → ∃ w : Word,
    exec (.div a b) st = .next (st.writeY w) ∧
    (∀ (s : BitVec 1) (E : Int) (f : BitVec 23), divEngine a b = .parts s E f → 1 ≤ E → E ≤ 255 →
      IsRounded24 (wordValue a / wordValue b) (wordValue w))

/-! ### Every command -/

/-- 43_multiply.md R165 and 44_divide.md R185: the sign of a product or a quotient is the XOR of the operand signs, for every
pair of words, zero results and division by zero included. -/
def Obligations.ProductAndQuotientSignIsXor : Prop :=
  ∀ (a b : Word) (s : State), ∃ p q : Word,
    exec (.mul a b) s = .next (s.writeY p) ∧ (unpack p).sign = (unpack a).sign ^^^ (unpack b).sign ∧
    exec (.div a b) s = .next (s.writeY q) ∧ (unpack q).sign = (unpack a).sign ^^^ (unpack b).sign


/-- A result whose true exponent lies outside 0 .. 255 is written with that exponent modulo 256 and its rounded sign and
fraction, with no saturation; within, as it is (60_exceptions.md, section 2). -/
def Obligations.ExponentOutOfRangeWraps : Prop :=
  ∀ (i : Instr) (st : State) (s : BitVec 1) (E : Int) (f : BitVec 23),
    instrEngine Config.alignStickyFold i = .parts s E f → ∃ w : Word,
      exec i st = .next (st.writeY w) ∧ (unpack w).sign = s ∧ (unpack w).fraction = f ∧
      (0 ≤ E → E ≤ 255 → expField w = E) ∧ (255 < E → expField w = E % 256) ∧ (E < 0 → expField w = E % 256)

/-- The engines' operands, sums, products, windows, quotients and remainders stay within the minimum widths, and the true exponent
of every result within -154 .. 385 (10_state.md, section 2, minimum widths; derived). The values inside the normalizer and the
loops, and the intermediate exponents, are LoopValuesAndExponentsFitTheirWidths. -/
def Obligations.WorkingValuesFitTheirWidths : Prop :=
  ∀ (fold : AlignStickyFold) (a b : Word),
    (sext32 a).natAbs ≤ 2 ^ 31 ∧
    extendedSig a < 2 ^ 27 ∧ alignedA fold a b < 2 ^ 27 ∧ alignedB fold a b < 2 ^ 27 ∧
    (signedSum fold a b).natAbs < 2 ^ 28 ∧
    product (sig a) (sig b) < 2 ^ 48 ∧ productWindow (product (sig a) (sig b)) < 2 ^ 28 ∧
    (longDivision (sig a) (sig b)).q < 2 ^ 26 ∧ quotientWithSticky (longDivision (sig a) (sig b)) < 2 ^ 27 ∧
    (∀ n : Nat, n ≤ 26 →
      (divLoop (sig b) n ⟨0, sig a⟩).r < 2 ^ 50 ∧ (2 ^ 23 ≤ sig b → (divLoop (sig b) n ⟨0, sig a⟩).r < 2 ^ 25)) ∧
    (∀ (i : Instr) (s : BitVec 1) (E : Int) (f : BitVec 23), instrEngine fold i = .parts s E f → -154 ≤ E ∧ E ≤ 385)

/-- A command's result is a function of its op code, its operands and the sticky fold alone, and nothing but `Y` changes
(10_state.md, section 1, the absence of state between commands). -/
def Obligations.ResultDependsOnTheCommandAlone : Prop :=
  ∀ (i : Instr) (s s' : State), ∃ t t' : State,
    exec i s = .next t ∧ exec i s' = .next t' ∧ t.y = t'.y ∧ t.y = some (resultWord (instrEngine .or i)) ∧
    t.port = s.port ∧ t.inFlight = s.inFlight ∧ t'.port = s'.port ∧ t'.inFlight = s'.inFlight

/-! ### Steps and runs -/

/-- A step runs the decoded command: the oldest accepted one, else the one on the inputs, taken off its place
(70_reset_and_hazards.md, section 2). That accepted commands stand in a list before the one on the inputs (log entry 1, DEDUCED),
and that the one on the inputs is accepted and completed in one step (log entry 3, DEDUCED), is the model's reading. -/
def Obligations.StepRunsTheDecodedCommand : Prop :=
  (∀ (s : State) (c : CommandWord) (cs : List CommandWord) (i : Instr),
    s.inFlight = c :: cs → decode c = .ok i → step s = exec i { s with inFlight := cs }) ∧
  (∀ (s : State) (c : CommandWord) (i : Instr),
    s.inFlight = [] → s.port = .issued c → decode c = .ok i → step s = exec i { s with port := .idle })

/-- 30_encoding.md R64: the three reserved op codes spell no operation, and a run that reaches one is refused from there on; every
other op code spells one. -/
def Obligations.ReservedCommandRefusesTheRun : Prop :=
  ∀ c : CommandWord,
    ((∃ i : Instr, decode c = .ok i) ↔ c.op ≠ 0b101#3 ∧ c.op ≠ 0b110#3 ∧ c.op ≠ 0b111#3) ∧
    (c.op = 0b101#3 ∨ c.op = 0b110#3 ∨ c.op = 0b111#3 →
      ∀ s rest : State, s.fetch = .command c rest → ∀ k : Nat, runSteps (k + 1) s = .refused (.reservedOp c.op))

/-- 60_exceptions.md R200: no step faults; every command with op code 0b000 to 0b100 gives a result; the only command refused
is a reserved one. -/
def Obligations.NoStepFaultsAndEveryCommandGivesAResult : Prop :=
  (∀ (s : State) (f : Fault), step s ≠ .fault f) ∧
  (∀ (s rest : State) (c : CommandWord), s.fetch = .command c rest → c.op.toNat ≤ 4 →
    ∃ w : Word, step s = .next (rest.writeY w)) ∧
  (∀ (s rest : State) (c : CommandWord) (r : Refusal), s.fetch = .command c rest → step s = .refused r → 5 ≤ c.op.toNat)

/-- From reset, and whenever no command is presented or in flight, the core waits: no step changes anything. There is no `Y`
after reset, and reading it then is a fault (70_reset_and_hazards.md, section 1; 10_state.md, section 3). That a waiting step is
a next state in which nothing changed, `Y` kept included (log entry 3, DEDUCED and unsafe; 95_test_vectors.md L3 says only that
`Y` holds the last result after a program), and that from reset nothing runs until a command comes from outside (log entry 2,
DESIGN CHOICE), is the model's reading. -/
def Obligations.CoreWaitsForACommand : Prop :=
  State.reset.readY = .error .yBeforeFirstCommand ∧
  (∀ k : Nat, runSteps k State.reset = .next State.reset) ∧
  (∀ (s : State) (k : Nat), s.port = .idle → s.inFlight = [] → runSteps k s = .next s)

/-- Issuing a command on free inputs delivers exactly that command's result, after those in flight, and issuing it again gives
the same result and changes nothing (70_reset_and_hazards.md, section 2; 20_memory.md, section 2). That the earlier commands take
one step each and this one the next is the model's reading (log entries 1 and 3, DEDUCED). -/
def Obligations.IssueDeliversTheCommandsOwnResult : Prop :=
  ∀ (s : State) (c : CommandWord) (w : Word),
    s.admitted = true → s.port = .idle → commandResult c = some w →
    issue c s = .next { port := .idle, inFlight := [], y := some w } ∧
    issue c { port := .idle, inFlight := [], y := some w } = .next { port := .idle, inFlight := [], y := some w }

/-- Commands accepted one after another deliver their results in issue order, whatever results came before
(70_reset_and_hazards.md, section 2, results in issue order). That each result takes one step, and the list of accepted commands
itself, are the model's reading (log entries 1 and 3, DEDUCED). -/
def Obligations.ResultsComeInIssueOrder : Prop :=
  (∀ (s : State) (k : Nat) (c : CommandWord),
    s.inFlight.all CommandWord.admitted = true → s.inFlight[k]? = some c →
    runSteps (k + 1) s = .next { s with inFlight := s.inFlight.drop (k + 1), y := commandResult c }) ∧
  (∀ (s : State) (c : CommandWord), s.port = .issued c →
    s.accept = { s with port := .idle, inFlight := s.inFlight ++ [c] })

/-- Two runs of the same commands in any order and after any history give each command the same result
(10_state.md, section 2, no state persists; the spec marks it as derived). That a run delivers one result a step, in the order of
the list, is the model's reading (log entries 1 and 3, DEDUCED). -/
def Obligations.OrderAndHistoryDoNotChangeResults : Prop :=
  ∀ (cs cs' : List CommandWord) (s s' : State),
    cs.Perm cs' → cs.all CommandWord.admitted = true →
    s.admitted = true → s.port = .idle → s'.admitted = true → s'.port = .idle →
    ∃ (ws ws' : List Word) (t t' : State),
      issueAll cs s = .next (ws, t) ∧ issueAll cs' s' = .next (ws', t') ∧
      ws.length = cs.length ∧ ws'.length = cs'.length ∧ (cs.zip ws).Perm (cs'.zip ws') ∧
      (∀ (c : CommandWord) (w w' : Word), (c, w) ∈ cs.zip ws → (c, w') ∈ cs'.zip ws' → w = w')

/-- The reset state is admitted: nothing that would stop the core waits in it (60_exceptions.md, section 1). -/
def Obligations.ResetStateIsAdmitted : Prop :=
  State.reset.admitted = true ∧ State.reset.inFlight = [] ∧ State.reset.port = .idle ∧ State.reset.y = none

/-- The invariant of a run: in an admitted state a step answers a next state, that state is admitted, and `Y`, once there, stays
there; presenting an admitted command on free inputs and accepting keep it too (60_exceptions.md, section 1). That a step with
nothing to do is a next state, and that `Y` stays, is the model's reading (log entry 3, DEDUCED). -/
def Obligations.AdmittedIsKeptByEveryStep : Prop :=
  (∀ s : State, s.admitted = true → ∃ t : State, step s = .next t ∧ t.admitted = true) ∧
  (∀ s t : State, s.admitted = true → step s = .next t → t.admitted = true ∧ (s.y.isSome = true → t.y.isSome = true)) ∧
  (∀ (s : State) (c : CommandWord), s.admitted = true → s.port = .idle → c.admitted = true → (s.drive c).admitted = true) ∧
  (∀ s : State, s.admitted = true → s.accept.admitted = true)

/-- From an admitted state every run goes on for ever, with no fault and no refusal, and a run long enough leaves nothing in
flight (60_exceptions.md, section 1). That a step with nothing to do is a next state, and that each command takes one step, is
the model's reading (log entries 1 and 3, DEDUCED). -/
def Obligations.AdmittedStatesRunOn : Prop :=
  ∀ s : State, s.admitted = true →
    s.runsOn ∧ ∃ t : State, runSteps (s.inFlight.length + 1) s = .next t ∧ t.inFlight = [] ∧ t.port = .idle

/-- A reset between steps leaves no `Y` and nothing in flight; a command in flight is then refused until the host issues a
command, which gives the result it gives without the reset (70_reset_and_hazards.md, section 1; log entries 4, 5 and
13: the refusal, the loss of `Y`, and that this holds for a reserved command in flight too, are the model's reading). -/
def Obligations.ResetAbandonsTheCommandInFlight : Prop :=
  ∀ (s : State) (c : CommandWord) (w : Word),
    s.resetPulse.readY = .error .yBeforeFirstCommand ∧
    (s.busy = false → s.resetPulse = State.reset) ∧
    (s.busy = true → step s.resetPulse = .refused .abandonedByReset) ∧
    (commandResult c = some w → issue c s.resetPulse = .next { port := .idle, inFlight := [], y := some w })

/-- Holding the inputs stable changes nothing; changing them before acceptance makes them no command, and the step that would
take it is refused, as is every command driven after (70_reset_and_hazards.md, section 2, input stability; log entry 6: that the
condition lasts is the model's reading). -/
def Obligations.ChangedInputsGiveNoResult : Prop :=
  ∀ (s : State) (c d e : CommandWord), s.port = .issued c →
    s.drive c = s ∧
    (d ≠ c → (s.drive d).port = .inputsChanged ∧ ((s.drive d).drive e).port = .inputsChanged ∧
      (s.inFlight = [] → ∀ k : Nat, runSteps (k + 1) ((s.drive d).drive e) = .refused .inputsChanged))

/-! ### Host programs -/

/-- A command line of a host program names its command's own result, and changes no earlier name; a name that no line wrote is
a fault wherever a line reads it: as either operand of a command, as I2F's operand, as the operand of MOV, FNEG or TOFLOAT
(30_encoding.md, section 3, host programs). That MOV and FNEG take a name, that TOFLOAT reads its operand and so faults on an
unwritten name, and which lines are admitted, are the model's choice (log entry 9, DESIGN CHOICE); that the commands accepted
before and then the line's own take one step each is the model's reading (log entries 1 and 3, DEDUCED). -/
def Obligations.HostLineNamesItsResult : Prop :=
  (∀ (d : ValueName) (c : AsmCommand) (h : HostState) (i : Instr),
    lineAdmitted (.command d c) h = true → assemble c h = .ok i → h.core.admitted = true → h.core.port = .idle →
    ∃ h' : HostState, runLine (.command d c) h = .next h' ∧
      h'.readName d = .ok (instrResult i) ∧ (∀ v : ValueName, v ≠ d → h'.readName v = h.readName v) ∧
      h'.core.readY = .ok (instrResult i)) ∧
  (∀ (d v : ValueName) (m : TwoOp) (x : AsmOperand) (h : HostState) (l : AsmLine),
    l ∈ [.command d (.two m (.name v) x), .command d (.two m x (.name v)), .command d (.i2f (.name v)),
      .mov d (.name v), .fneg d (.name v), .tofloat (.name v)] →
    lineAdmitted l h = true → h.written v = false → runLine l h = .fault .unwrittenName)

/-- MOV, FNEG and TOFLOAT issue no command: the core's state is unchanged, MOV names the word, FNEG names it with bit 31
flipped, TOFLOAT names nothing (30_encoding.md, section 3, pseudo-operations). That MOV and FNEG take a name, that TOFLOAT reads
its operand and names nothing, and which lines are admitted, are the model's choice (log entry 9, DESIGN CHOICE). -/
def Obligations.PseudoOperationsIssueNoCommand : Prop :=
  ∀ (d : ValueName) (x : AsmOperand) (h : HostState) (w : Word), operandWord x h = .ok w →
    (lineAdmitted (.mov d x) h = true → runLine (.mov d x) h = .next { h with values := (d, w) :: h.values }) ∧
    (lineAdmitted (.fneg d x) h = true →
      runLine (.fneg d x) h = .next { h with values := (d, w ^^^ 0x80000000#32) :: h.values }) ∧
    (lineAdmitted (.tofloat x) h = true → runLine (.tofloat x) h = .next h)

/-! ### Widths inside the loops -/

/-- The working values inside the normalizer and the loops stay within their minimum widths, the alignment distance within
0 .. 254, and every exponent on the way to a result within -154 .. 385 (10_state.md, section 2, minimum widths; the exponent
range is an inference that the spec marks as derived). -/
def Obligations.LoopValuesAndExponentsFitTheirWidths : Prop :=
  (∀ m : Int, m ≠ 0 → m.natAbs ≤ 2 ^ 31 →
    (∀ k : Nat, (normRight k (normStart m 150)).M < 2 ^ 32 ∧ exponentFits (normRight k (normStart m 150)).E) ∧
    (∀ k : Nat, k ≤ 23 →
      (normLeft k (normRight m.natAbs.log2 (normStart m 150))).M < 2 ^ 24 ∧
      exponentFits (normLeft k (normRight m.natAbs.log2 (normStart m 150))).E) ∧
    (normRound (normLeft 23 (normRight m.natAbs.log2 (normStart m 150)))).M ≤ 2 ^ 24 ∧
    (normWork m 150).M < 2 ^ 24 ∧ exponentFits (normWork m 150).E) ∧
  (∀ (fold : AlignStickyFold) (a b : Word),
    (sext32 a).natAbs ≤ 2 ^ 31 ∧ (signedSum fold a b).natAbs ≤ 2 ^ 31 ∧
    productWindow (product (sig a) (sig b)) ≤ 2 ^ 31 ∧ quotientWithSticky (longDivision (sig a) (sig b)) ≤ 2 ^ 31 ∧
    (∀ k : Nat, (alignLoop k ⟨extendedSig a, false⟩).x < 2 ^ 27) ∧
    (∀ k : Nat, k ≤ 24 → shiftAdd (sig a) (sig b) k < 2 ^ 48) ∧
    (∀ k : Nat, k ≤ 26 → (divLoop (sig b) k ⟨0, sig a⟩).q < 2 ^ 26)) ∧
  (∀ (fold : AlignStickyFold) (a b : Word) (n : Normalized), expField a ≠ 0 → expField b ≠ 0 →
    (expField a - expField b).natAbs ≤ 254 ∧
    (norm (signedSum fold a b) 150 = some n →
      exponentFits (n.exponent - 3) ∧ exponentFits (workingExponent a b - 127) ∧
      exponentFits (workingExponent a b - 127 - 23) ∧
      exponentFits (n.exponent - 3 + (workingExponent a b - 127 - 23)))) ∧
  (∀ (a b : Word) (n : Normalized),
    exponentFits (expField a - 127) ∧
    (norm (productWindow (product (sig a) (sig b)) : Int) 150 = some n →
      exponentFits (n.exponent - 3) ∧ exponentFits (n.exponent - 3 - 23) ∧
      exponentFits (n.exponent - 3 - 23 + (expField a - 127)) ∧
      exponentFits (n.exponent - 3 - 23 + (expField a - 127) + (expField b - 127))) ∧
    (norm (quotientWithSticky (longDivision (sig a) (sig b)) : Int) 150 = some n →
      exponentFits (n.exponent - 3) ∧ exponentFits (n.exponent - 3 - 23) ∧
      exponentFits (n.exponent - 3 - 23 + (expField a - 127)) ∧
      exponentFits (n.exponent - 3 - 23 + (expField a - 127) - (expField b - 127))))
end

