-- ==== Sys2Proof/Laws/Command.lean ====
section
/-! SUPPORT. The fields of a command word and what the decoder answers. -/

namespace Sys2Proof

/-- `C = OP * 2^64 + A * 2^32 + B` (30_encoding.md R60). -/
theorem ofFields_toNat (op : BitVec 3) (a b : Word) :
    (CommandWord.ofFields op a b).toNat = op.toNat * 2 ^ 64 + a.toNat * 2 ^ 32 + b.toNat := by
  have hb := b.isLt
  have ha := a.isLt
  unfold CommandWord.ofFields
  have hab : a.toNat <<< 32 + b.toNat < 2 ^ (32 + 32) := by rw [Nat.shiftLeft_eq]; omega
  rw [BitVec.toNat_cast, BitVec.toNat_append, BitVec.toNat_append,
    ← Nat.shiftLeft_add_eq_or_of_lt hb, ← Nat.shiftLeft_add_eq_or_of_lt hab,
    Nat.shiftLeft_eq, Nat.shiftLeft_eq]
  omega

@[simp] theorem ofFields_op (op : BitVec 3) (a b : Word) : (CommandWord.ofFields op a b).op = op := by
  have ho := op.isLt
  have ha := a.isLt
  have hb := b.isLt
  apply BitVec.eq_of_toNat_eq
  rw [CommandWord.op, BitVec.extractLsb'_toNat, ofFields_toNat, Nat.shiftRight_eq_div_pow]
  omega

@[simp] theorem ofFields_a (op : BitVec 3) (a b : Word) : (CommandWord.ofFields op a b).a = a := by
  have ha := a.isLt
  have hb := b.isLt
  apply BitVec.eq_of_toNat_eq
  rw [CommandWord.a, BitVec.extractLsb'_toNat, ofFields_toNat, Nat.shiftRight_eq_div_pow]
  omega

@[simp] theorem ofFields_b (op : BitVec 3) (a b : Word) : (CommandWord.ofFields op a b).b = b := by
  have hb := b.isLt
  apply BitVec.eq_of_toNat_eq
  rw [CommandWord.b, BitVec.extractLsb'_toNat, ofFields_toNat, Nat.shiftRight_eq_div_pow]
  omega

/-- The op code of an instruction is below 5. -/
theorem opcode_lt (i : Instr) : i.opcode.toNat < 5 := by
  cases i <;> simp [Instr.opcode]

/-- Everything the decoder can answer, by op code. -/
theorem decode_cases (c : CommandWord) :
    (c.op.toNat = 0 ∧ decode c = .ok (.add c.a c.b)) ∨
    (c.op.toNat = 1 ∧ decode c = .ok (.sub c.a c.b)) ∨
    (c.op.toNat = 2 ∧ decode c = .ok (.mul c.a c.b)) ∨
    (c.op.toNat = 3 ∧ decode c = .ok (.div c.a c.b)) ∨
    (c.op.toNat = 4 ∧ decode c = .ok (.i2f c.a)) ∨
    (5 ≤ c.op.toNat ∧ decode c = .error (.reservedOp c.op)) := by
  unfold decode
  split <;> simp_all
  omega

/-- An admitted command decodes to an instruction. -/
theorem decode_of_admitted {c : CommandWord} (h : c.admitted = true) : ∃ i, decode c = .ok i := by
  have h' : c.op.toNat < 5 := by simpa [CommandWord.admitted, opAdmitted] using h
  rcases decode_cases c with ⟨-, h⟩ | ⟨-, h⟩ | ⟨-, h⟩ | ⟨-, h⟩ | ⟨-, h⟩ | ⟨h5, -⟩
  · exact ⟨_, h⟩
  · exact ⟨_, h⟩
  · exact ⟨_, h⟩
  · exact ⟨_, h⟩
  · exact ⟨_, h⟩
  · omega

end Sys2Proof
end

