-- ==== Sys2Proof/Laws/Operands.lean ====
section
/-! SUPPORT. The fields of a word and their ranges. -/

namespace Sys2Proof.Machine

/-- The exponent field lies in 0 .. 255 (40_representation.md R81). -/
theorem expField_range (w : Word) : 0 ≤ expField w ∧ expField w ≤ 255 := by
  have h := (unpack w).exponent.isLt
  unfold expField
  omega

/-- An exponent field of 0 is what makes a zero (40_representation.md R82). -/
theorem isZero_iff_expField (w : Word) : isZero w = true ↔ expField w = 0 := by
  unfold isZero expField
  rw [beq_iff_eq, ← BitVec.toNat_inj]
  simp

/-- The significand of a nonzero exponent field (40_representation.md R84). -/
theorem sig_of_expField_ne {w : Word} (h : expField w ≠ 0) : sig w = 2 ^ 23 + (unpack w).fraction.toNat := by
  have : (unpack w).exponent ≠ 0#8 := by
    intro he
    exact h (by simp [expField, he])
  simp [sig, this]

/-- The significand of an exponent field of 0 (40_representation.md R84). -/
theorem sig_of_expField_eq {w : Word} (h : expField w = 0) : sig w = (unpack w).fraction.toNat := by
  have : (unpack w).exponent = 0#8 := by
    apply BitVec.eq_of_toNat_eq
    simpa [expField] using h
  simp [sig, this]

/-- A significand has 24 bits. -/
theorem sig_lt (w : Word) : sig w < 2 ^ 24 := by
  have h := (unpack w).fraction.isLt
  unfold sig
  split <;> omega

/-- `Pack(s, E, f)` as a number (40_representation.md R85). -/
theorem pack_toNat (s : BitVec 1) (E : Int) (f : BitVec 23) :
    (pack s E f).toNat = s.toNat * 2 ^ 31 + (E % 256).toNat * 2 ^ 23 + f.toNat := by
  have hf := f.isLt
  have hE : (E % 256).toNat < 256 := by omega
  have he : (BitVec.ofNat 8 (E % 256).toNat).toNat = (E % 256).toNat := by
    rw [BitVec.toNat_ofNat]; exact Nat.mod_eq_of_lt hE
  have hef : (E % 256).toNat <<< 23 + f.toNat < 2 ^ (8 + 23) := by rw [Nat.shiftLeft_eq]; omega
  unfold pack
  rw [BitVec.toNat_cast, BitVec.toNat_append, BitVec.toNat_append, he,
    ← Nat.shiftLeft_add_eq_or_of_lt hf, ← Nat.shiftLeft_add_eq_or_of_lt hef,
    Nat.shiftLeft_eq, Nat.shiftLeft_eq]
  omega

/-- The fields of a word as numbers (40_representation.md R81). -/
theorem unpack_toNat (w : Word) :
    (unpack w).sign.toNat = w.toNat / 2 ^ 31 ∧ (unpack w).exponent.toNat = w.toNat / 2 ^ 23 % 256 ∧
      (unpack w).fraction.toNat = w.toNat % 2 ^ 23 := by
  have h := w.isLt
  simp only [unpack, BitVec.extractLsb'_toNat, Nat.shiftRight_eq_div_pow]
  norm_num
  omega

@[simp] theorem resultWord_word (w : Word) : resultWord (.word w) = w := rfl

@[simp] theorem resultWord_parts (s : BitVec 1) (E : Int) (f : BitVec 23) : resultWord (.parts s E f) = pack s E f := rfl

/-- An operand's sign on its magnitude keeps the magnitude (42_addsub.md R136). -/
@[simp] theorem natAbs_applySign (s : BitVec 1) (x : Nat) : (applySign s x).natAbs = x := by
  unfold applySign
  split <;> simp

/-- The integer operand of I2F has magnitude at most 2^31 (41_normalize.md R100). -/
theorem natAbs_sext32_le (w : Word) : (sext32 w).natAbs ≤ 2 ^ 31 := by
  have h := w.isLt
  have hb : w.getLsbD 31 = decide (2 ^ 31 ≤ w.toNat) := by
    rw [BitVec.getLsbD, Nat.testBit_eq_decide_div_mod_eq]
    exact decide_eq_decide.mpr (by omega)
  unfold sext32
  rw [hb]
  by_cases hc : 2 ^ 31 ≤ w.toNat
  · simp only [hc, decide_true, if_true]; omega
  · simp only [hc, decide_false]
    simp only [Bool.false_eq_true, if_false]; omega

end Sys2Proof.Machine
end

