-- ==== Sys2Proof/Laws/Engines.lean ====
section
/-! SUPPORT. One iteration of each loop, and everything each engine can answer. -/

namespace Sys2Proof.Machine

@[simp] theorem normRight_zero (n : NormWork) : normRight 0 n = n := rfl

theorem normRight_big {n : NormWork} (h : 2 ^ 24 ≤ n.M) (k : Nat) : normRight (k + 1) n = normRight k (normShiftRight n) := if_pos h

theorem normRight_small {n : NormWork} (h : n.M < 2 ^ 24) (k : Nat) : normRight k n = n := by
  cases k with
  | zero => rfl
  | succ k => exact if_neg (Nat.not_le.mpr h)

@[simp] theorem normLeft_zero (n : NormWork) : normLeft 0 n = n := rfl

theorem normLeft_small {n : NormWork} (h : n.M < 2 ^ 23) (k : Nat) : normLeft (k + 1) n = normLeft k (normShiftLeft n) := if_pos h

theorem normLeft_big {n : NormWork} (h : 2 ^ 23 ≤ n.M) (k : Nat) : normLeft k n = n := by
  cases k with
  | zero => rfl
  | succ k => exact if_neg (Nat.not_lt.mpr h)

/-- The left normalization never touches guard, round and sticky (41_normalize.md R104). -/
theorem normLeft_keeps_rounding_bits (k : Nat) (n : NormWork) : (normLeft k n).gr = n.gr ∧ (normLeft k n).st = n.st := by
  induction k generalizing n with
  | zero => exact ⟨rfl, rfl⟩
  | succ k ih =>
    unfold normLeft
    split
    · exact ih (normShiftLeft n)
    · exact ⟨rfl, rfl⟩

/-- What the engine answers for a nonzero input, in the working values' terms. -/
theorem norm_of_ne_zero {m : Int} (h : m ≠ 0) (e0 : Int) :
    norm m e0 = some
      { sign := if m < 0 then 1#1 else 0#1
        exponent := (normWork m e0).E
        fraction := BitVec.ofNat 23 (normWork m e0).M } := by
  simp [norm, h]

@[simp] theorem alignLoop_zero (t : Aligning) : alignLoop 0 t = t := rfl

@[simp] theorem alignLoop_succ (d : Nat) (t : Aligning) :
    alignLoop (d + 1) t = alignLoop d { x := t.x >>> 1, sticky := t.sticky || t.x.testBit 0 } := rfl

/-- One more low bit of an OR over low bits. -/
theorem anyBitBelow_succ (x d : Nat) : anyBitBelow x (d + 1) = (x.testBit 0 || anyBitBelow (x >>> 1) d) := by
  have h : x % 2 ^ (d + 1) = x % 2 + 2 * (x / 2 % 2 ^ d) := by
    rw [pow_succ', Nat.mod_mul]
  unfold anyBitBelow
  rw [h, Nat.shiftRight_eq_div_pow, pow_one, Nat.testBit_zero]
  rcases Nat.mod_two_eq_zero_or_one x with h2 | h2 <;> rw [h2]
  · rw [Bool.eq_iff_iff]
    simp
  · simp only [decide_true, Bool.true_or, bne_iff_ne]
    omega

/-- Everything the alignment loop does: a shift, and the OR of what left (42_addsub.md R135). -/
theorem alignLoop_eq (d : Nat) (t : Aligning) :
    alignLoop d t = { x := t.x >>> d, sticky := t.sticky || anyBitBelow t.x d } := by
  induction d generalizing t with
  | zero => simp [anyBitBelow, Nat.mod_one]
  | succ d ih =>
    rw [alignLoop_succ, ih, anyBitBelow_succ, ← Nat.shiftRight_add, Nat.add_comm 1 d, Bool.or_assoc]

@[simp] theorem shiftAdd_zero (sa sb : Nat) : shiftAdd sa sb 0 = 0 := rfl

/-- One step of the product in arithmetic terms: the bit of `sb` times the shifted `sa`. -/
theorem shiftAdd_succ (sa sb n : Nat) :
    shiftAdd sa sb (n + 1) = shiftAdd sa sb n + (sb.testBit n).toNat * (sa * 2 ^ n) := by
  rw [shiftAdd]
  cases sb.testBit n <;> simp [Nat.shiftLeft_eq]

/-- Everything shift-and-add does in `n` steps: the product by the low `n` bits (43_multiply.md R161). -/
theorem shiftAdd_eq (sa sb n : Nat) : shiftAdd sa sb n = sa * (sb % 2 ^ n) := by
  induction n with
  | zero => simp [Nat.mod_one]
  | succ n ih =>
    have h : sb % 2 ^ (n + 1) = sb % 2 ^ n + 2 ^ n * (sb.testBit n).toNat := by
      rw [pow_succ, Nat.mod_mul, Nat.testBit_eq_decide_div_mod_eq]
      rcases Nat.mod_two_eq_zero_or_one (sb / 2 ^ n) with h | h <;> simp [h]
    rw [shiftAdd_succ, ih, h]
    ring

@[simp] theorem divLoop_zero (D : Nat) (t : Dividing) : divLoop D 0 t = t := rfl

@[simp] theorem divLoop_succ (D n : Nat) (t : Dividing) : divLoop D (n + 1) t = divStep D (divLoop D n t) := rfl

/-- One division step in arithmetic terms, the divisor subtracted. -/
theorem divStep_of_ge {D : Nat} {t : Dividing} (h : D ≤ t.r) :
    divStep D t = { q := 2 * t.q + 1, r := 2 * (t.r - D) } := by
  have hq : (t.q <<< 1) ||| 1 = 2 * t.q + 1 := by
    rw [← Nat.shiftLeft_add_eq_or_of_lt (i := 1) (by decide), Nat.shiftLeft_eq]
    omega
  rw [divStep, if_pos h, hq, Nat.shiftLeft_eq, pow_one, Nat.mul_comm (t.r - D)]

/-- One division step in arithmetic terms, nothing subtracted. -/
theorem divStep_of_lt {D : Nat} {t : Dividing} (h : t.r < D) : divStep D t = { q := 2 * t.q, r := 2 * t.r } := by
  rw [divStep, if_neg (Nat.not_le.mpr h), Nat.shiftLeft_eq, Nat.shiftLeft_eq, pow_one, Nat.mul_comm t.q, Nat.mul_comm t.r]

/-- What every iteration of the long division keeps, for any divisor (44_divide.md R181). -/
theorem divLoop_keeps (D N n : Nat) :
    2 ^ n * N = 2 * ((divLoop D n { q := 0, r := N }).q * D) + (divLoop D n { q := 0, r := N }).r := by
  induction n with
  | zero => simp
  | succ n ih =>
    rw [divLoop_succ]
    rcases Nat.lt_or_ge (divLoop D n { q := 0, r := N }).r D with h | h
    · rw [divStep_of_lt h, pow_succ]
      dsimp only
      nlinarith [ih]
    · rw [divStep_of_ge h, pow_succ]
      dsimp only
      obtain ⟨k, hk⟩ := Nat.exists_eq_add_of_le h
      rw [hk] at ih ⊢
      rw [Nat.add_sub_cancel_left]
      nlinarith [ih]

/-- A dividend below twice the divisor keeps every remainder below twice the divisor (44_divide.md R181). -/
theorem divLoop_remainder_lt {D N : Nat} (h : N < 2 * D) (n : Nat) : (divLoop D n { q := 0, r := N }).r < 2 * D := by
  induction n with
  | zero => exact h
  | succ n ih =>
    rw [divLoop_succ]
    rcases Nat.lt_or_ge (divLoop D n { q := 0, r := N }).r D with hr | hr
    · rw [divStep_of_lt hr]; dsimp only; omega
    · rw [divStep_of_ge hr]; dsimp only; omega

/-- Everything an addition can answer (42_addsub.md R132, R138, R139). -/
theorem addEngine_cases (fold : AlignStickyFold) (a b : Word) :
    (isZero b = true ∧ addEngine fold a b = .word a) ∨
    (isZero b = false ∧ isZero a = true ∧ addEngine fold a b = .word b) ∨
    (isZero b = false ∧ isZero a = false ∧ signedSum fold a b = 0 ∧ addEngine fold a b = .word constructedZero) ∨
    (isZero b = false ∧ isZero a = false ∧ signedSum fold a b ≠ 0 ∧
      ∃ n, norm (signedSum fold a b) 150 = some n ∧
        addEngine fold a b = .parts n.sign (n.exponent - 3 + (workingExponent a b - 127 - 23)) n.fraction) := by
  cases hb : isZero b
  · cases ha : isZero a
    · by_cases hs : signedSum fold a b = 0
      · refine .inr (.inr (.inl ⟨rfl, rfl, hs, ?_⟩))
        simp [addEngine, hb, ha, hs, norm]
      · refine .inr (.inr (.inr ⟨rfl, rfl, hs, _, norm_of_ne_zero hs 150, ?_⟩))
        simp [addEngine, hb, ha, norm_of_ne_zero hs]
    · exact .inr (.inl ⟨rfl, rfl, by simp [addEngine, hb, ha]⟩)
  · exact .inl ⟨rfl, by simp [addEngine, hb]⟩

/-- Everything a multiplication can answer (43_multiply.md R163, R164). -/
theorem mulEngine_cases (a b : Word) :
    (productWindow (product (sig a) (sig b)) = 0 ∧ mulEngine a b = .word (signedZero (signXor a b))) ∨
    (productWindow (product (sig a) (sig b)) ≠ 0 ∧
      ∃ n, norm (productWindow (product (sig a) (sig b)) : Int) 150 = some n ∧
        mulEngine a b = .parts (signXor a b) (n.exponent - 3 - 23 + (expField a - 127) + (expField b - 127)) n.fraction) := by
  by_cases hq : productWindow (product (sig a) (sig b)) = 0
  · exact .inl ⟨hq, by simp [mulEngine, hq, norm]⟩
  · have hz : ((productWindow (product (sig a) (sig b)) : Nat) : Int) ≠ 0 := by exact_mod_cast hq
    exact .inr ⟨hq, _, norm_of_ne_zero hz 150, by simp only [mulEngine, norm_of_ne_zero hz]⟩

/-- Everything a division can answer (44_divide.md R183, R184). -/
theorem divEngine_cases (a b : Word) :
    (quotientWithSticky (longDivision (sig a) (sig b)) = 0 ∧ divEngine a b = .word (signedZero (signXor a b))) ∨
    (quotientWithSticky (longDivision (sig a) (sig b)) ≠ 0 ∧
      ∃ n, norm (quotientWithSticky (longDivision (sig a) (sig b)) : Int) 150 = some n ∧
        divEngine a b = .parts (signXor a b) (n.exponent - 3 - 23 + (expField a - 127) - (expField b - 127)) n.fraction) := by
  by_cases hq : quotientWithSticky (longDivision (sig a) (sig b)) = 0
  · exact .inl ⟨hq, by simp [divEngine, hq, norm]⟩
  · have hz : ((quotientWithSticky (longDivision (sig a) (sig b)) : Nat) : Int) ≠ 0 := by exact_mod_cast hq
    exact .inr ⟨hq, _, norm_of_ne_zero hz 150, by simp only [divEngine, norm_of_ne_zero hz]⟩

/-- Everything a conversion can answer (41_normalize.md R112). -/
theorem i2fEngine_cases (a : Word) :
    (sext32 a = 0 ∧ i2fEngine a = .word constructedZero) ∨
    (sext32 a ≠ 0 ∧ ∃ n, norm (sext32 a) 150 = some n ∧ i2fEngine a = .parts n.sign n.exponent n.fraction) := by
  by_cases h : sext32 a = 0
  · exact .inl ⟨h, by simp [i2fEngine, h, norm]⟩
  · exact .inr ⟨h, _, norm_of_ne_zero h 150, by simp only [i2fEngine, norm_of_ne_zero h]⟩

end Sys2Proof.Machine
end

