-- ==== Sys2Proof/Laws/HostProgram.lean ====
section
/-! SUPPORT. The host's named values, what reading an operand can answer, and the printed digits. -/

namespace Sys2Proof.Machine

@[simp] theorem bind_core (h : HostState) (v : ValueName) (w : Word) : (h.bind v w).core = h.core := rfl

@[simp] theorem bind_values (h : HostState) (v : ValueName) (w : Word) : (h.bind v w).values = (v, w) :: h.values := rfl

/-- The name just written reads as its word. -/
@[simp] theorem readName_bind_same (h : HostState) (v : ValueName) (w : Word) : (h.bind v w).readName v = .ok w := by
  simp [HostState.readName]

/-- Every other name reads as before. -/
theorem readName_bind_other (h : HostState) {u v : ValueName} (w : Word) (huv : u ≠ v) :
    (h.bind v w).readName u = h.readName u := by
  simp [HostState.readName, List.lookup_cons, beq_eq_false_iff_ne.mpr huv]

/-- A name no line wrote is a fault when read. -/
theorem readName_of_unwritten {h : HostState} {v : ValueName} (hv : h.written v = false) :
    h.readName v = .error .unwrittenName := by
  have : h.values.lookup v = none := by simpa [HostState.written] using hv
  simp [HostState.readName, this]

/-- Everything reading an operand can answer: a word, or the one fault. -/
theorem operandWord_cases (x : AsmOperand) (h : HostState) :
    (∃ w, operandWord x h = .ok w) ∨ operandWord x h = .error .unwrittenName := by
  cases x with
  | hex w => exact .inl ⟨w, rfl⟩
  | decimal n => exact .inl ⟨_, rfl⟩
  | name v =>
    cases hv : h.values.lookup v with
    | none => exact .inr (by simp [operandWord, HostState.readName, hv])
    | some w => exact .inl ⟨w, by simp [operandWord, HostState.readName, hv]⟩

/-- How many digits are printed. -/
@[simp] theorem hexDigits_length (k n : Nat) : (hexDigits k n).length = k := by
  induction k generalizing n with
  | zero => rfl
  | succ k ih => simp [hexDigits, ih]

end Sys2Proof.Machine
end

