-- ==== Sys2Proof/Laws/State.lean ====
section
/-! SUPPORT. One lemma per field per update of the state. -/

namespace Sys2Proof.Machine

@[simp] theorem writeY_port (s : State) (w : Word) : (s.writeY w).port = s.port := rfl

@[simp] theorem writeY_inFlight (s : State) (w : Word) : (s.writeY w).inFlight = s.inFlight := rfl

@[simp] theorem writeY_y (s : State) (w : Word) : (s.writeY w).y = some w := rfl

@[simp] theorem reset_port : State.reset.port = .idle := rfl

@[simp] theorem reset_inFlight : State.reset.inFlight = [] := rfl

@[simp] theorem reset_y : State.reset.y = none := rfl

@[simp] theorem resetPulse_port (s : State) : s.resetPulse.port = if s.busy then .abandoned else .idle := rfl

@[simp] theorem resetPulse_inFlight (s : State) : s.resetPulse.inFlight = [] := rfl

@[simp] theorem resetPulse_y (s : State) : s.resetPulse.y = none := rfl

@[simp] theorem drivePorts_eq (s : State) (op : BitVec 3) (a b : Word) :
    s.drivePorts op a b = s.drive (CommandWord.ofFields op a b) := rfl

/-- Two writes of `Y`: the later stands. -/
@[simp] theorem writeY_writeY (s : State) (v w : Word) : (s.writeY v).writeY w = s.writeY w := rfl

/-- A result that was delivered is the one read. -/
@[simp] theorem readY_writeY (s : State) (w : Word) : (s.writeY w).readY = .ok w := rfl

end Sys2Proof.Machine
end

