-- ==== Sys2Proof/Laws/Ops.lean ====
section
/-! SUPPORT. What the operations on the port and on the commands in flight can do. -/

namespace Sys2Proof.Machine

/-- An accepted command comes before whatever stands on the inputs. -/
theorem fetch_of_inFlight {s : State} {c : CommandWord} {cs : List CommandWord} (h : s.inFlight = c :: cs) :
    s.fetch = .command c { s with inFlight := cs } := by
  simp [State.fetch, h]

/-- With nothing in flight the inputs decide. -/
theorem fetch_of_empty {s : State} (h : s.inFlight = []) :
    s.fetch = match s.port with
      | .idle => .nothing
      | .issued c => .command c { s with port := .idle }
      | .inputsChanged => .stopped .inputsChanged
      | .abandoned => .stopped .abandonedByReset := by
  cases hp : s.port <;> simp [State.fetch, h, hp]

/-- Everything a fetch can find, with its condition. -/
theorem fetch_cases (s : State) :
    (∃ c cs, s.inFlight = c :: cs ∧ s.fetch = .command c { s with inFlight := cs }) ∨
    (s.inFlight = [] ∧ s.port = .idle ∧ s.fetch = .nothing) ∨
    (∃ c, s.inFlight = [] ∧ s.port = .issued c ∧ s.fetch = .command c { s with port := .idle }) ∨
    (s.inFlight = [] ∧ s.port = .inputsChanged ∧ s.fetch = .stopped .inputsChanged) ∨
    (s.inFlight = [] ∧ s.port = .abandoned ∧ s.fetch = .stopped .abandonedByReset) := by
  cases hf : s.inFlight with
  | cons c cs => exact .inl ⟨c, cs, rfl, fetch_of_inFlight hf⟩
  | nil =>
    have h := fetch_of_empty hf
    cases hp : s.port <;> simp_all

/-- A fetched command leaves `Y` as it was. -/
theorem fetch_command_y {s rest : State} {c : CommandWord} (h : s.fetch = .command c rest) : rest.y = s.y := by
  rcases fetch_cases s with ⟨c', cs, -, hf⟩ | ⟨-, -, hf⟩ | ⟨c', -, -, hf⟩ | ⟨-, -, hf⟩ | ⟨-, -, hf⟩ <;>
    rw [hf] at h <;> simp at h
  · simp [← h.2]
  · simp [← h.2]

/-- Presenting a command never touches what is in flight. -/
@[simp] theorem drive_inFlight (s : State) (c : CommandWord) : (s.drive c).inFlight = s.inFlight := by
  unfold State.drive
  split <;> try rfl
  split <;> rfl

/-- Presenting a command never touches `Y`. -/
@[simp] theorem drive_y (s : State) (c : CommandWord) : (s.drive c).y = s.y := by
  unfold State.drive
  split <;> try rfl
  split <;> rfl

/-- A command presented on free inputs stands there. -/
theorem drive_of_idle {s : State} (h : s.port = .idle) (c : CommandWord) :
    s.drive c = { s with port := .issued c } := by
  simp [State.drive, h]

/-- Holding the inputs stable changes nothing. -/
theorem drive_stable {s : State} {c : CommandWord} (h : s.port = .issued c) : s.drive c = s := by
  simp [State.drive, h]

/-- The circuit's acceptance moves the presented command behind those already in flight. -/
theorem accept_of_issued {s : State} {c : CommandWord} (h : s.port = .issued c) :
    s.accept = { s with port := .idle, inFlight := s.inFlight ++ [c] } := by
  simp [State.accept, h]

/-- Acceptance never touches `Y`. -/
@[simp] theorem accept_y (s : State) : s.accept.y = s.y := by
  unfold State.accept
  split <;> rfl

/-- The core is busy unless its inputs are idle and nothing is in flight. -/
theorem busy_eq_false_iff (s : State) : s.busy = false ↔ s.port = .idle ∧ s.inFlight = [] := by
  simp [State.busy]

/-- Reading `Y` gives a word exactly when there is one. -/
theorem readY_eq_ok_iff (s : State) (w : Word) : s.readY = .ok w ↔ s.y = some w := by
  unfold State.readY
  cases s.y <;> simp

end Sys2Proof.Machine
end

