-- ==== Sys2Proof/Laws/PerInstr.lean ====
section
/-! SUPPORT. A statement per instruction about its encoding, one lemma per constructor. -/

namespace Sys2Proof.Laws

/-- The encoding of an instruction carries its op code of 30_encoding.md R62, which is not reserved (R64). -/
def EncodedOpcode.Statement (i : Instr) : Prop := (encode i).op = i.opcode ∧ (encode i).admitted = true

theorem EncodedOpcode.add (a b : Word) : EncodedOpcode.Statement (.add a b) := by
  simp [EncodedOpcode.Statement, encode, CommandWord.admitted, opAdmitted, Instr.opcode]

theorem EncodedOpcode.sub (a b : Word) : EncodedOpcode.Statement (.sub a b) := by
  simp [EncodedOpcode.Statement, encode, CommandWord.admitted, opAdmitted, Instr.opcode]

theorem EncodedOpcode.mul (a b : Word) : EncodedOpcode.Statement (.mul a b) := by
  simp [EncodedOpcode.Statement, encode, CommandWord.admitted, opAdmitted, Instr.opcode]

theorem EncodedOpcode.div (a b : Word) : EncodedOpcode.Statement (.div a b) := by
  simp [EncodedOpcode.Statement, encode, CommandWord.admitted, opAdmitted, Instr.opcode]

theorem EncodedOpcode.i2f (a : Word) : EncodedOpcode.Statement (.i2f a) := by
  simp [EncodedOpcode.Statement, encode, CommandWord.admitted, opAdmitted, Instr.opcode]

end Sys2Proof.Laws
end

