-- ==== Sys2Proof/Laws/Step.lean ====
section
/-! SUPPORT. What a meaning, a step and a run can do. -/

namespace Sys2Proof.Machine

/-- Every meaning delivers the result of its command and does nothing else (00_scope.md R10). -/
theorem exec_eq (i : Instr) (s : State) : exec i s = .next (s.writeY (instrResult i)) := by
  cases i <;> rfl

/-- A step whose next command decodes. -/
theorem step_of_decoded {s rest : State} {c : CommandWord} {i : Instr} (hf : s.fetch = .command c rest)
    (hd : decode c = .ok i) : step s = .next (rest.writeY (instrResult i)) := by
  simp [step, hf, hd, exec_eq]

/-- A step whose next command is reserved. -/
theorem step_of_reserved {s rest : State} {c : CommandWord} {op : BitVec 3} (hf : s.fetch = .command c rest)
    (hd : decode c = .error (.reservedOp op)) : step s = .refused (.reservedOp op) := by
  simp [step, hf, hd]

/-- Everything a step that answers a next state can have done. -/
theorem step_next_cases {s t : State} (h : step s = .next t) :
    (s.fetch = .nothing ∧ t = s) ∨
    (∃ c rest i, s.fetch = .command c rest ∧ decode c = .ok i ∧ t = rest.writeY (instrResult i)) := by
  unfold step at h
  split at h
  next hf =>
    injection h with h
    exact .inl ⟨hf, h.symm⟩
  next => cases h
  next c rest hf =>
    split at h
    next => cases h
    next i hd =>
      rw [exec_eq] at h
      injection h with h
      exact .inr ⟨c, rest, i, hf, hd, h.symm⟩

@[simp] theorem runSteps_zero (s : State) : runSteps 0 s = .next s := rfl

/-- One more step at the front of a run. -/
theorem runSteps_succ (k : Nat) (s : State) :
    runSteps (k + 1) s = match step s with
      | .next t => runSteps k t
      | .fault f => .fault f
      | .refused r => .refused r := by
  cases h : step s <;>
  · have h' : Sys2Proof.core.step s = _ := h
    simp only [runSteps, Host.Core.run, h']
    rfl

end Sys2Proof.Machine
end

