-- ==== Sys2Proof/Tests/Slice0.lean ====
section
/-! SUPPORT. The model's own tests: ill-formed terms refused, decoded words, a few commands of 95_test_vectors.md, and a witness
for the hypotheses of each statement. Expected results are the spec's. -/

namespace Sys2Proof.Tests

open Sys2Proof Sys2Proof.Machine

/-- The core after reset with one command presented. -/
def presented (op : BitVec 3) (a b : Word) : State := State.reset.drivePorts op a b

/-- `Y` after one step, where the step answers a next state. -/
def yAfter (s : State) : Option Word :=
  match step s with
  | .next t => t.y
  | .fault _ => none
  | .refused _ => none

/-- Does one step refuse for this reason? -/
def refuses (s : State) (r : Refusal) : Bool :=
  match step s with
  | .next _ => false
  | .fault _ => false
  | .refused r' => r == r'

/-! ### Well-formedness refuses ill-formed terms -/

theorem test_reserved_words_not_admitted :
    CommandWord.admitted 0x53F8000003F800000#67 = false ∧ CommandWord.admitted 0x60000000000000000#67 = false ∧
      CommandWord.admitted 0x7FFFFFFFFFFFFFFFF#67 = false ∧ CommandWord.admitted 0x4FFFFFFFFFFFFFFFF#67 = true := by decide

theorem test_decimal_refused_for_add :
    AsmCommand.wellFormed (.two .add (.decimal 3) (.hex 0#32)) = false ∧
      AsmCommand.wellFormed (.two .add (.hex 0#32) (.decimal 3)) = false := by decide

theorem test_decimal_range_of_i2f :
    AsmCommand.wellFormed (.i2f (.decimal 2147483648)) = false ∧ AsmCommand.wellFormed (.i2f (.decimal 2147483647)) = true ∧
      AsmCommand.wellFormed (.i2f (.decimal (-2147483649))) = false ∧
      AsmCommand.wellFormed (.i2f (.decimal (-2147483648))) = true := by decide

theorem test_decimal_refused_for_pseudo_operations :
    AsmLine.wellFormed (.mov ['v', '1'] (.decimal 1)) = false ∧ AsmLine.wellFormed (.fneg ['v', '1'] (.decimal 1)) = false ∧
      AsmLine.wellFormed (.tofloat (.decimal 1)) = false := by decide

theorem test_name_written_twice_refused :
    AsmProgram.wellFormed [.mov ['v', '1'] (.hex 0#32), .fneg ['v', '1'] (.hex 0#32)] = false := by decide

/-! ### Words of 30_encoding.md R62, written out -/

theorem test_decode_add :
    decode 0b0000100000100100000000000000000000011000000000000000000000000000000#67 =
      .ok (.add 0x41200000#32 0xC0000000#32) := by decide

theorem test_decode_sub :
    decode 0b0010011111110000000000000000000000000111111011111111111111111111111#67 =
      .ok (.sub 0x3F800000#32 0x3F7FFFFF#32) := by decide

theorem test_decode_mul :
    decode 0b0100011111110000000000000000000000001000000010000000000000000000000#67 =
      .ok (.mul 0x3F800000#32 0x40400000#32) := by decide

theorem test_decode_div :
    decode 0b0110100000100100000000000000000000001000000000000000000000000000000#67 =
      .ok (.div 0x41200000#32 0x40000000#32) := by decide

theorem test_decode_i2f :
    decode 0b1000000000000000000000000000000101011111111111111111111111111111111#67 = .ok (.i2f 0x0000000A#32) := by decide

theorem test_decode_reserved : decode 0x53F8000003F800000#67 = .error (.reservedOp 0b101#3) := by decide

/-- The printed example of 30_encoding.md R71. -/
theorem test_printed_form :
    printEncoded (encode (.add 0x41200000#32 0xC0000000#32)) =
      ['0', '_', '4', '1', '2', '0', '0', '0', '0', '0', '_', 'C', '0', '0', '0', '0', '0', '0', '0'] := by decide

/-- A table word is decoded and fetched as the same command, and a number past 67 bits is neither. -/
theorem test_table_word :
    decodeTableWord 72 0x3412000004000000000 = none ∧
      decodeTableWord 72 0x34120000040000000 = some (.div 0x41200000#32 0x40000000#32) ∧
      yAfter (State.reset.withFetchWord 72 0x34120000040000000) = some 0x40A00000#32 ∧
      State.reset.withFetchWord 72 0x3412000004000000000 = State.reset := by decide

/-! ### Commands of 95_test_vectors.md -/

/-- AS-17: the OR fold keeps bit 0 of the shifted operand. -/
theorem test_add_or_fold : yAfter (presented 0#3 0x3F800000#32 0x3E000005#32) = some 0x3F900001#32 := by decide

/-- E4, 0.1 + 0.2: guard and round set, the smaller operand first. -/
theorem test_add_rounds_up : yAfter (presented 0#3 0x3DCCCCCD#32 0x3E4CCCCD#32) = some 0x3E99999A#32 := by decide

/-- AS-28: cancellation, and an exponent of -22 wraps. -/
theorem test_sub_wraps : yAfter (presented 1#3 0x00800001#32 0x00800000#32) = some 0x75000000#32 := by decide

/-- AS-35: a negative difference. -/
theorem test_sub_negative : yAfter (presented 1#3 0x40000000#32 0x41200000#32) = some 0xC1000000#32 := by decide

/-- MU-16: an exact tie with an odd retained bit. -/
theorem test_mul_tie : yAfter (presented 2#3 0x3F800001#32 0x3FC00000#32) = some 0x3FC00002#32 := by decide

/-- MU-24: a subnormal pattern has no implied one. -/
theorem test_mul_subnormal_pattern : yAfter (presented 2#3 0x00000001#32 0x3F800000#32) = some 0x74800000#32 := by
  decide

/-- DV-2: an inexact quotient of a dividend below the divisor. -/
theorem test_div_inexact : yAfter (presented 3#3 0x3F800000#32 0x40400000#32) = some 0x3EAAAAAB#32 := by decide

/-- DV-16: zero divided by zero. -/
theorem test_div_zero_by_zero : yAfter (presented 3#3 0x80000000#32 0x00000000#32) = some 0xC0000000#32 := by decide

/-- IF-24: the most negative integer. -/
theorem test_i2f_most_negative : yAfter (presented 4#3 0x80000000#32 0#32) = some 0xCF000000#32 := by decide

/-- IF-22: a tie with an odd retained bit, and IB-2: `B` ignored. -/
theorem test_i2f_tie : yAfter (presented 4#3 0x0400000C#32 0xFFFFFFFF#32) = some 0x4C800002#32 := by decide

/-- RS-1: a reserved command is refused. -/
theorem test_reserved_refused : refuses (presented 5#3 0x3F800000#32 0x3F800000#32) (.reservedOp 5#3) = true := by decide

/-- Program P2 of 95_test_vectors.md: the host's names at the end. -/
theorem test_program_p2 :
    (match runProgram
        [.command ['v', '1'] (.i2f (.decimal 10)), .command ['v', '2'] (.i2f (.decimal 2)),
          .command ['v', '3'] (.two .div (.name ['v', '1']) (.name ['v', '2']))] HostState.start with
      | .next h => h.values.map Prod.snd
      | .fault _ => []
      | .refused _ => []) = [0x40A00000#32, 0x40000000#32, 0x41200000#32] := by decide

/-- The text of a line of program P1. -/
theorem test_parse_line :
    parseLine ['v', '3', ' ', '=', ' ', 'a', 'd', 'd', ' ', 'v', '1', ',', ' ', 'v', '2'] =
      some (.command ['v', '3'] (.two .add (.name ['v', '1']) (.name ['v', '2']))) := by decide

/-! ### Witnesses: the hypotheses of each statement are met -/

theorem witness_DecoderFollowsOpcodeMap :
    CommandWord.op 0x0FFFFFFFFFFFFFFFF#67 = 0b000#3 ∧ CommandWord.op 0x1FFFFFFFFFFFFFFFF#67 = 0b001#3 ∧
      CommandWord.op 0x20000000000000000#67 = 0b010#3 ∧ CommandWord.op 0x30000000000000000#67 = 0b011#3 ∧
      CommandWord.op 0x4FFFFFFFFFFFFFFFF#67 = 0b100#3 ∧ CommandWord.op 0x50000000000000000#67 = 0b101#3 ∧
      CommandWord.op 0x60000000000000000#67 = 0b110#3 ∧ CommandWord.op 0x7FFFFFFFFFFFFFFFF#67 = 0b111#3 := by decide

theorem witness_DecodeInvertsEncode :
    decode 0x40000000AFFFFFFFF#67 = .ok (.i2f 10#32) ∧ decode (encode (.i2f 10#32)) = .ok (.i2f 10#32) := by decide

theorem witness_I2fIgnoresSecondField : (0 : Nat) < 8 ∧ (7 : Nat) < 8 := by decide

theorem witness_PrintedFormDeterminesCommand :
    printEncoded 0#67 = printEncoded (encode (.add 0#32 0#32)) ∧ (0 : Nat) < 8 ∧ (7 : Nat) < 8 := by decide

theorem witness_NegationFlipsOnlyTheSign : (30 : Nat) ≠ 31 ∧ (32 : Nat) ≠ 31 ∧ (0 : Nat) ≠ 31 := by decide

theorem witness_SignificandHasImpliedOneOnlyWhenNonzero :
    (unpack 0x00800000#32).exponent ≠ 0#8 ∧ (unpack 0xFFFFFFFF#32).exponent ≠ 0#8 ∧ (unpack 0x007FFFFF#32).exponent = 0#8 ∧
      (unpack 0x80000000#32).exponent = 0#8 := by decide

theorem witness_NormalizerGivesZeroForZeroOnly : sext32 0x00000000#32 = 0 := by decide

/-- Magnitudes with no, one, two, three and eight right shifts. -/
theorem witness_RightNormalizationGathersDiscardedBits :
    (2 ^ 24 - 1 : Int) ≠ 0 ∧ bitLength (2 ^ 24 - 1) - 24 = 0 ∧ bitLength (2 ^ 24) - 24 = 1 ∧ bitLength (2 ^ 26 - 1) - 24 = 2 ∧
      bitLength (2 ^ 26) - 24 = 3 ∧ bitLength (2 ^ 31) - 24 = 8 := by decide

theorem witness_LeftNormalizationReachesTheTargetRange :
    (1 : Int) ≠ 0 ∧ (normRight (1 : Int).natAbs.log2 (normStart 1 150)).M < 2 ^ 23 ∧
      (normRight (2 ^ 23 - 1 : Int).natAbs.log2 (normStart (2 ^ 23 - 1) 150)).M < 2 ^ 23 := by decide

theorem witness_RoundingFollowsGuardRoundSticky :
    (NormWork.mk (2 ^ 23) 150 0b00#2 true).gr.toNat < 2 ∧ (NormWork.mk (2 ^ 23) 150 0b01#2 true).gr.toNat < 2 ∧
      (NormWork.mk (2 ^ 23) 150 0b10#2 false).gr = 0b10#2 ∧ (NormWork.mk (2 ^ 23) 150 0b11#2 false).gr = 0b11#2 := by decide

/-- A magnitude that rounds up to 2^24, and one that does not. -/
theorem witness_CarryIsRenormalizedOnce :
    (2 ^ 25 - 1 : Int) ≠ 0 ∧
      (normRound (normLeft 23 (normRight (2 ^ 25 - 1 : Int).natAbs.log2 (normStart (2 ^ 25 - 1) 150)))).M = 2 ^ 24 ∧
      (normRound (normLeft 23 (normRight (2 ^ 24 - 1 : Int).natAbs.log2 (normStart (2 ^ 24 - 1) 150)))).M ≠ 2 ^ 24 := by
  decide

theorem witness_NormalizerRoundsToNearestEven :
    (-(2 ^ 24 - 1) : Int) ≠ 0 ∧ bitLength (-(2 ^ 24 - 1) : Int).natAbs ≤ 24 ∧ ¬ bitLength (2 ^ 24 : Int).natAbs ≤ 24 := by
  decide

theorem witness_I2fRoundsEveryInteger : sext32 0x80000000#32 ≠ 0 ∧ sext32 0x80000000#32 < 0 ∧ sext32 0#32 = 0 := by decide

theorem witness_AddReturnsOtherOperandOfAZero :
    expField 0x807FFFFF#32 = 0 ∧ expField 0x00800000#32 ≠ 0 ∧ expField 0xFF800000#32 ≠ 0 := by decide

theorem witness_SubAddsTheNegation :
    expField 0x00800000#32 ≠ 0 ∧ expField 0x7F800000#32 ≠ 0 ∧ expField 0x007FFFFF#32 = 0 := by decide

/-- The least and the largest extended significand, the distances where the clauses meet, and a pair that the folds tell apart. -/
theorem witness_AlignmentFoldsTheSticky :
    2 ^ 26 ≤ 2 ^ 26 ∧ 2 ^ 26 < 2 ^ 27 ∧ 2 ^ 26 % 8 = 0 ∧ 2 ^ 26 ≤ 2 ^ 27 - 8 ∧ 2 ^ 27 - 8 < 2 ^ 27 ∧ (2 ^ 27 - 8) % 8 = 0 ∧
      27 ≤ 27 ∧ 3 ≤ 3 ∧ (2 ^ 26 + 8) % 8 = 0 ∧ align .replace (2 ^ 26 + 8) 3 ≠ align .or (2 ^ 26 + 8) 3 := by decide

theorem witness_SumIsZeroOnlyForOppositeOperands :
    expField 0x00800000#32 ≠ 0 ∧ expField 0x80800000#32 ≠ 0 ∧ signedSum .or 0x00800000#32 0x80800000#32 = 0 ∧
      signedSum .replace 0x7FFFFFFF#32 0xFFFFFFFF#32 = 0 := by decide

/-- Results of true exponent 1 and 255. -/
theorem witness_AddRoundsTheExactSum :
    expField 0x01000000#32 ≠ 0 ∧ expField 0x80800000#32 ≠ 0 ∧
      addEngine .or 0x01000000#32 0x80800000#32 = .parts 0#1 1 0#23 ∧
      addEngine .or 0x7F7FFFFF#32 0x7F7FFFFF#32 = .parts 0#1 255 0x7FFFFF#23 := by decide

/-- Operands whose exact sum is zero. -/
theorem witness_AddRoundsTheExactSum_zero : wordValue 0x3F800000#32 + wordValue 0xBF800000#32 = 0 := by
  have h : expField 0x3F800000#32 = 127 ∧ expField 0xBF800000#32 = 127 := by decide
  have hz : isZero 0x3F800000#32 = false ∧ isZero 0xBF800000#32 = false := by decide
  have hs : (unpack 0x3F800000#32).sign = 0#1 ∧ (unpack 0xBF800000#32).sign = 1#1 := by decide
  have hf : (unpack 0x3F800000#32).fraction = 0#23 ∧ (unpack 0xBF800000#32).fraction = 0#23 := by decide
  simp [wordValue, h, hz, hs, hf]

theorem witness_SubRoundsTheExactDifference :
    expField 0x01000000#32 ≠ 0 ∧ expField 0x00800000#32 ≠ 0 ∧
      subEngine .or 0x01000000#32 0x00800000#32 = .parts 0#1 1 0#23 ∧
      subEngine .or 0x7F7FFFFF#32 0xFF7FFFFF#32 = .parts 0#1 255 0x7FFFFF#23 := by decide

theorem witness_SubRoundsTheExactDifference_zero : wordValue 0x3F800000#32 - wordValue 0x3F800000#32 = 0 := sub_self _

theorem witness_ShiftAndAddIsTheExactProduct : expField 0x00800000#32 ≠ 0 ∧ expField 0xFFFFFFFF#32 ≠ 0 := by decide

theorem witness_ProductWindowKeepsHighBitsAndSticky : 2 ^ 20 - 1 < 2 ^ 48 ∧ 2 ^ 48 - 1 < 2 ^ 48 := by decide

theorem witness_MulByZeroGivesSignedZero :
    productWindow (product (sig 0x80000000#32) (sig 0x7FFFFFFF#32)) = 0 ∧
      productWindow (product (sig 0x00000001#32) (sig 0x00000001#32)) ≠ 0 := by decide

theorem witness_MulExponentOfNonzeroFields :
    expField 0x00800000#32 ≠ 0 ∧ expField 0xFFFFFFFF#32 ≠ 0 ∧ 2 ^ 47 ≤ sig 0xFFFFFFFF#32 * sig 0xFFFFFFFF#32 ∧
      ¬ 2 ^ 47 ≤ sig 0x00800000#32 * sig 0xFFFFFFFF#32 := by decide

/-- Products of true exponent 1 and 255. -/
theorem witness_MulRoundsTheExactProduct :
    expField 0x00800000#32 ≠ 0 ∧ expField 0x3F800000#32 ≠ 0 ∧ mulEngine 0x00800000#32 0x3F800000#32 = .parts 0#1 1 0#23 ∧
      mulEngine 0x7F000000#32 0x40000000#32 = .parts 0#1 255 0#23 := by decide

theorem witness_LongDivisionGivesQuotientAndRemainder :
    2 ^ 24 - 1 < 2 ^ 24 ∧ 2 ^ 23 ≤ 2 ^ 23 ∧ 2 * 0 ≤ 0 ∧ 2 * (2 ^ 23 - 1) ≤ 2 ^ 24 - 1 := by decide

theorem witness_DivOfZeroGivesSignedZero : sig 0x80000000#32 = 0 ∧ sig 0x00000001#32 ≠ 0 ∧ sig 0x7F800000#32 ≠ 0 := by decide

theorem witness_DivideByZeroGivesItsClosedForm : sig 0x00000000#32 = 0 ∧ sig 0x80000000#32 = 0 := by decide

theorem witness_DivExponentOfNonzeroFields :
    expField 0x00800000#32 ≠ 0 ∧ expField 0x7F800001#32 ≠ 0 ∧ sig 0x00800000#32 < sig 0x7F800001#32 ∧
      ¬ sig 0x7F800001#32 < sig 0x00800000#32 := by decide

/-- Quotients of true exponent 1 and 255. -/
theorem witness_DivRoundsTheExactQuotient :
    expField 0x00800000#32 ≠ 0 ∧ expField 0x3F800000#32 ≠ 0 ∧ divEngine 0x00800000#32 0x3F800000#32 = .parts 0#1 1 0#23 ∧
      divEngine 0x7F000000#32 0x3F000000#32 = .parts 0#1 255 0#23 := by decide

/-- True exponents -22, 0, 255 and 256 (95_test_vectors.md AS-28, AS-29, MU-18, MU-19). -/
theorem witness_ExponentOutOfRangeWraps :
    instrEngine Config.alignStickyFold (.sub 0x00800001#32 0x00800000#32) = .parts 0#1 (-22) 0#23 ∧
      instrEngine Config.alignStickyFold (.sub 0x00C00000#32 0x00800000#32) = .parts 0#1 0 0#23 ∧
      instrEngine Config.alignStickyFold (.mul 0x7F000000#32 0x40000000#32) = .parts 0#1 255 0#23 ∧
      instrEngine Config.alignStickyFold (.mul 0x7F000000#32 0x40800000#32) = .parts 0#1 256 0#23 := by decide

theorem witness_WorkingValuesFitTheirWidths :
    26 ≤ 26 ∧ 0 ≤ 26 ∧ 2 ^ 23 ≤ sig 0x00800000#32 ∧
      instrEngine .replace (.mul 0x00000001#32 0x00000001#32) = .parts 0#1 (-153) 0#23 ∧
      instrEngine .or (.mul 0x7FFFFFFF#32 0x7FFFFFFF#32) = .parts 0#1 384 0x7FFFFE#23 := by decide

/-- A state with a command in flight, one with a command on the inputs alone. -/
theorem witness_StepRunsTheDecodedCommand :
    (State.mk .idle [encode (.i2f 1#32)] none).inFlight = [encode (.i2f 1#32)] ∧
      decode (encode (.i2f 1#32)) = .ok (.i2f 1#32) ∧ (presented 4#3 1#32 7#32).inFlight = [] ∧
      (presented 4#3 1#32 7#32).port = .issued 0x40000000100000007#67 ∧ decode 0x40000000100000007#67 = .ok (.i2f 1#32) := by
  decide

theorem witness_ReservedCommandRefusesTheRun :
    CommandWord.op 0x53F8000003F800000#67 = 0b101#3 ∧
      (presented 5#3 0x3F800000#32 0x3F800000#32).fetch = .command 0x53F8000003F800000#67 State.reset ∧
      CommandWord.op 0x7FFFFFFFFFFFFFFFF#67 = 0b111#3 ∧
      (State.mk .abandoned [0x7FFFFFFFFFFFFFFFF#67] none).fetch =
        .command 0x7FFFFFFFFFFFFFFFF#67 (State.mk .abandoned [] none) := by decide

theorem witness_NoStepFaultsAndEveryCommandGivesAResult :
    (presented 4#3 1#32 0#32).fetch = .command 0x40000000100000000#67 State.reset ∧
      (CommandWord.op 0x40000000100000000#67).toNat ≤ 4 ∧
      (presented 5#3 0#32 0#32).fetch = .command 0x50000000000000000#67 State.reset ∧
      refuses (presented 5#3 0#32 0#32) (.reservedOp 5#3) = true := by decide

theorem witness_CoreWaitsForACommand :
    (State.mk .idle [] (some 1#32)).port = .idle ∧ (State.mk .idle [] (some 1#32)).inFlight = [] := by decide

/-- A free port with an earlier command still in flight. -/
theorem witness_IssueDeliversTheCommandsOwnResult :
    (State.mk .idle [encode (.i2f 1#32)] none).admitted = true ∧ (State.mk .idle [encode (.i2f 1#32)] none).port = .idle ∧
      commandResult (encode (.i2f 10#32)) = some 0x41200000#32 := by decide

theorem witness_ResultsComeInIssueOrder :
    (State.mk .idle [encode (.i2f 1#32), encode (.i2f 2#32)] none).inFlight.all CommandWord.admitted = true ∧
      (State.mk .idle [encode (.i2f 1#32), encode (.i2f 2#32)] none).inFlight[1]? = some (encode (.i2f 2#32)) ∧
      (presented 4#3 1#32 0#32).port = .issued 0x40000000100000000#67 := by decide

theorem witness_OrderAndHistoryDoNotChangeResults :
    [encode (.i2f 1#32), encode (.i2f 2#32)].Perm [encode (.i2f 2#32), encode (.i2f 1#32)] ∧
      [encode (.i2f 1#32), encode (.i2f 2#32)].all CommandWord.admitted = true ∧
      State.reset.admitted = true ∧ State.reset.port = .idle ∧
      (State.mk .idle [encode (.i2f 1#32)] (some 3#32)).admitted = true ∧
      (State.mk .idle [encode (.i2f 1#32)] (some 3#32)).port = .idle := by decide

theorem witness_AdmittedIsKeptByEveryStep :
    (presented 4#3 1#32 0#32).admitted = true ∧ yAfter (presented 4#3 1#32 0#32) = some 0x3F800000#32 ∧
      (State.mk .idle [encode (.i2f 1#32)] (some 3#32)).y.isSome = true ∧
      (State.mk .idle [encode (.i2f 1#32)] (some 3#32)).admitted = true ∧
      (State.mk .idle [encode (.i2f 1#32)] (some 3#32)).port = .idle ∧ CommandWord.admitted 0x4FFFFFFFFFFFFFFFF#67 = true := by
  decide

theorem witness_AdmittedStatesRunOn :
    (State.mk (.issued (encode (.i2f 1#32))) [encode (.i2f 1#32)] none).admitted = true := by decide

theorem witness_ResetAbandonsTheCommandInFlight :
    (State.mk .idle [] (some 1#32)).busy = false ∧ (State.mk .idle [encode (.i2f 1#32)] (some 1#32)).busy = true ∧
      (presented 4#3 1#32 0#32).busy = true ∧ commandResult (encode (.i2f 1#32)) = some 0x3F800000#32 := by decide

theorem witness_ChangedInputsGiveNoResult :
    (presented 4#3 1#32 0#32).port = .issued 0x40000000100000000#67 ∧ (presented 4#3 1#32 0#32).inFlight = [] ∧
      (0x40000000200000000#67 : CommandWord) ≠ 0x40000000100000000#67 := by decide

theorem witness_HostLineNamesItsResult :
    lineAdmitted (.command ['v', '1'] (.i2f (.decimal (-2)))) HostState.start = true ∧
      assemble (.i2f (.decimal (-2))) HostState.start = .ok (.i2f 0xFFFFFFFE#32) ∧ HostState.start.core.admitted = true ∧
      HostState.start.core.port = .idle ∧
      lineAdmitted (.command ['v', '1'] (.two .add (.name ['v', '2']) (.hex 0#32))) HostState.start = true ∧
      HostState.start.written ['v', '2'] = false ∧ ['v', '2'] ≠ ['v', '1'] := by decide

/-- Each line that reads the unwritten name `v2`. -/
theorem witness_HostLineNamesItsResult_unwritten :
    lineAdmitted (.command ['v', '1'] (.two .add (.hex 0#32) (.name ['v', '2']))) HostState.start = true ∧
      lineAdmitted (.command ['v', '1'] (.i2f (.name ['v', '2']))) HostState.start = true ∧
      lineAdmitted (.mov ['v', '1'] (.name ['v', '2'])) HostState.start = true ∧
      lineAdmitted (.fneg ['v', '1'] (.name ['v', '2'])) HostState.start = true ∧
      lineAdmitted (.tofloat (.name ['v', '2'])) HostState.start = true := by decide

theorem witness_PseudoOperationsIssueNoCommand :
    operandWord (.hex 5#32) HostState.start = .ok 5#32 ∧ lineAdmitted (.mov ['v', '1'] (.hex 5#32)) HostState.start = true ∧
      lineAdmitted (.fneg ['v', '1'] (.hex 5#32)) HostState.start = true ∧
      lineAdmitted (.tofloat (.hex 5#32)) HostState.start = true := by decide

/-- The most negative integer, both ends of the loop counts, and the largest alignment distance. -/
theorem witness_LoopValuesAndExponentsFitTheirWidths :
    (-(2 ^ 31) : Int) ≠ 0 ∧ (-(2 ^ 31) : Int).natAbs ≤ 2 ^ 31 ∧ 0 ≤ 23 ∧ 23 ≤ 23 ∧ 24 ≤ 24 ∧ 26 ≤ 26 ∧
      expField 0x7F800000#32 ≠ 0 ∧ expField 0x7E800000#32 ≠ 0 ∧
      norm (signedSum .or 0x7F800000#32 0x7E800000#32) 150 = some ⟨0#1, 153, 0x200000#23⟩ ∧
      (expField 0x7F800000#32 - expField 0x00800000#32).natAbs = 254 ∧
      norm (productWindow (product (sig 0x00000001#32) (sig 0x00000001#32)) : Int) 150 = some ⟨0#1, 127, 0#23⟩ ∧
      norm (quotientWithSticky (longDivision (sig 0x00000001#32) (sig 0x7FFFFFFF#32)) : Int) 150 =
        some ⟨0#1, 129, 0x200000#23⟩ := by decide

end Sys2Proof.Tests
end

section
/-! The command word and its decoder: the statements of 30_encoding.md, sections 1 and 2. -/

open Sys2Proof.Machine

namespace Sys2Proof

/-! ### The fields of a command word -/

/-- A command word is the sum of its fields (30_encoding.md R60): no bit lies outside them. -/
theorem toNat_eq_fields (c : CommandWord) : c.toNat = c.op.toNat * 2 ^ 64 + c.a.toNat * 2 ^ 32 + c.b.toNat := by
  have hc := c.isLt
  simp only [CommandWord.op, CommandWord.a, CommandWord.b, BitVec.extractLsb'_toNat, Nat.shiftRight_eq_div_pow]
  omega

@[simp] theorem ofFields_op_a_b (c : CommandWord) : CommandWord.ofFields c.op c.a c.b = c :=
  BitVec.eq_of_toNat_eq ((ofFields_toNat c.op c.a c.b).trans (toNat_eq_fields c).symm)

/-- Settles O1: the sum and the slices are the laws of `ofFields`; the three inputs make the word they were cut from. -/
theorem commandWordHasThreeFields : Obligations.CommandWordHasThreeFields := by
  refine ⟨fun op a b => ?_, ofFields_op_a_b, fun s c => ?_⟩
  · exact ⟨ofFields_toNat op a b, ofFields_op op a b, ofFields_a op a b, ofFields_b op a b⟩
  · rw [drivePorts_eq, ofFields_op_a_b]

/-! ### The decoder, one equation for each row of the op code map (30_encoding.md R62) -/

section
variable {c : CommandWord}

theorem decode_of_op_add (h : c.op = 0b000#3) : decode c = .ok (.add c.a c.b) := by simp [decode, h]

theorem decode_of_op_sub (h : c.op = 0b001#3) : decode c = .ok (.sub c.a c.b) := by simp [decode, h]

theorem decode_of_op_mul (h : c.op = 0b010#3) : decode c = .ok (.mul c.a c.b) := by simp [decode, h]

theorem decode_of_op_div (h : c.op = 0b011#3) : decode c = .ok (.div c.a c.b) := by simp [decode, h]

theorem decode_of_op_i2f (h : c.op = 0b100#3) : decode c = .ok (.i2f c.a) := by simp [decode, h]

/-- The three reserved rows of the op code map (30_encoding.md R64). -/
theorem decode_of_op_reserved (h : c.op = 0b101#3 ∨ c.op = 0b110#3 ∨ c.op = 0b111#3) :
    decode c = .error (.reservedOp c.op) := by
  rcases h with h | h | h <;> simp [decode, h]

end

/-- Settles O2: each clause is the decoder's equation for that row of the op code map. -/
theorem decoderFollowsOpcodeMap : Obligations.DecoderFollowsOpcodeMap := fun _ =>
  ⟨decode_of_op_add, decode_of_op_sub, decode_of_op_mul, decode_of_op_div, decode_of_op_i2f, decode_of_op_reserved⟩

/-! ### Reserved commands (30_encoding.md R64) -/

/-- The admitted op codes are exactly those that are not reserved (30_encoding.md R62, R64). -/
theorem admitted_iff_op_ne_reserved (c : CommandWord) :
    c.admitted = true ↔ c.op ≠ 0b101#3 ∧ c.op ≠ 0b110#3 ∧ c.op ≠ 0b111#3 := by
  simp only [CommandWord.admitted, opAdmitted, decide_eq_true_iff]
  bv_omega

/-- The words that spell an operation are exactly the admitted ones. -/
theorem exists_decode_eq_ok_iff_admitted (c : CommandWord) : (∃ i, decode c = .ok i) ↔ c.admitted = true := by
  refine ⟨fun ⟨i, hi⟩ => ?_, decode_of_admitted⟩
  rw [admitted_iff_op_ne_reserved]
  by_contra hop
  have hres : c.op = 0b101#3 ∨ c.op = 0b110#3 ∨ c.op = 0b111#3 := by tauto
  rw [decode_of_op_reserved hres] at hi
  cases hi

/-- A refused first step refuses every run that makes it: a refusal is kept for the whole run. -/
theorem runSteps_succ_of_refused {s : State} {r : Refusal} (h : step s = .refused r) (k : Nat) :
    runSteps (k + 1) s = .refused r := by
  simp [runSteps_succ, h]

/-- Settles O46: the decoder refuses exactly the reserved rows, so the step that fetches one is refused, and the run with it. -/
theorem reservedCommandRefusesTheRun : Obligations.ReservedCommandRefusesTheRun := by
  intro c
  refine ⟨(exists_decode_eq_ok_iff_admitted c).trans (admitted_iff_op_ne_reserved c), ?_⟩
  intro hop s rest hfetch k
  exact runSteps_succ_of_refused (step_of_reserved hfetch (decode_of_op_reserved hop)) k

end Sys2Proof
end

section
/-! Settles the statements of 40_representation.md: unpacking, packing, negation and the significand. -/

namespace Sys2Proof.Machine

/-- Field triples are equal when their three fields are equal as numbers. -/
theorem FloatValue.eq_of_toNat_eq {u v : FloatValue} (hsign : u.sign.toNat = v.sign.toNat)
    (hexponent : u.exponent.toNat = v.exponent.toNat) (hfraction : u.fraction.toNat = v.fraction.toNat) : u = v := by
  cases u
  cases v
  rw [FloatValue.mk.injEq]
  exact ⟨BitVec.eq_of_toNat_eq hsign, BitVec.eq_of_toNat_eq hexponent, BitVec.eq_of_toNat_eq hfraction⟩

/-- Unpacking a packed word gives back its parts, the exponent cut to its 8 low bits (40_representation.md R81, R85). -/
@[simp] theorem unpack_pack (s : BitVec 1) (E : Int) (f : BitVec 23) :
    unpack (pack s E f) = { sign := s, exponent := BitVec.ofInt 8 E, fraction := f } := by
  obtain ⟨hsign, hexponent, hfraction⟩ := unpack_toNat (pack s E f)
  rw [pack_toNat] at hsign hexponent hfraction
  have hf := f.isLt
  apply FloatValue.eq_of_toNat_eq
  · dsimp only; omega
  · rw [BitVec.toNat_ofInt]; omega
  · dsimp only; omega

/-- Packing reduces the exponent modulo 256 (40_representation.md R85). -/
@[simp] theorem expField_pack (s : BitVec 1) (E : Int) (f : BitVec 23) : expField (pack s E f) = E % 256 := by
  rw [expField, unpack_pack, BitVec.toNat_ofInt]
  omega

/-- A word is the packing of its own fields: unpacking loses nothing (40_representation.md R81). -/
@[simp] theorem pack_unpack (w : Word) : pack (unpack w).sign (expField w) (unpack w).fraction = w := by
  obtain ⟨hsign, hexponent, hfraction⟩ := unpack_toNat w
  apply BitVec.eq_of_toNat_eq
  rw [pack_toNat, expField, hsign, hexponent, hfraction]
  omega

/-- Packing a field triple and unpacking it gives the triple back. -/
theorem unpack_pack_fields (v : FloatValue) : unpack (pack v.sign v.exponent.toNat v.fraction) = v := by
  rw [unpack_pack, BitVec.ofInt_natCast, BitVec.ofNat_toNat, BitVec.setWidth_eq]

/-- No two words have the same fields. -/
theorem unpack_injective : Function.Injective unpack := by
  intro w w' h
  rw [← pack_unpack w, ← pack_unpack w', expField, expField, h]

/-- Negation acts on each bit: the sign bit is flipped, any other is kept (40_representation.md R86). -/
theorem getLsbD_neg (w : Word) (k : Nat) : (neg w).getLsbD k = (w.getLsbD k ^^ decide (k = 31)) := by
  have hmask : neg w = w ^^^ BitVec.twoPow 32 31 := rfl
  rw [hmask, BitVec.getLsbD_xor, BitVec.getLsbD_twoPow]
  simp [eq_comm]

end Sys2Proof.Machine

namespace Sys2Proof

open Sys2Proof.Machine

/-- Settles O8: the fields are the word's three slices; packing and unpacking undo each other, so each triple has one word. -/
theorem unpackSlicesEveryWordOnce : Obligations.UnpackSlicesEveryWordOnce :=
  ⟨unpack_toNat, fun v =>
    ⟨pack v.sign v.exponent.toNat v.fraction, unpack_pack_fields v, fun _ h => unpack_injective (h.trans (unpack_pack_fields v).symm)⟩⟩

/-- Settles O9, from the fields of a packed word. -/
theorem packWritesExponentModulo256 : Obligations.PackWritesExponentModulo256 := by
  intro s E f
  rw [unpack_pack]
  exact ⟨rfl, rfl, expField_pack s E f⟩

/-- Settles O10, from what negation does to each bit. -/
theorem negationFlipsOnlyTheSign : Obligations.NegationFlipsOnlyTheSign := by
  intro w
  refine ⟨rfl, ?_, fun k hk => ?_⟩
  · rw [getLsbD_neg, decide_eq_true rfl, Bool.xor_true]
  · rw [getLsbD_neg, decide_eq_false hk, Bool.xor_false]

/-- Settles O11: each branch of the significand, with the range its 23 fraction bits give it. -/
theorem significandHasImpliedOneOnlyWhenNonzero : Obligations.SignificandHasImpliedOneOnlyWhenNonzero := by
  intro w
  have hfraction := (unpack w).fraction.isLt
  refine ⟨fun hne => ?_, fun heq => ?_⟩
  · have hsig : sig w = 2 ^ 23 + (unpack w).fraction.toNat := if_neg hne
    omega
  · have hsig : sig w = (unpack w).fraction.toNat := if_pos heq
    omega

end Sys2Proof
end

section
/-! Settles the statements of 41_normalize.md, section 1: the zero, the two normalizations, the rounding step and its carry. -/

namespace Sys2Proof.Machine

/-! ### The right normalization (41_normalize.md R103) -/

section
variable (n : NormWork)

@[simp] theorem normShiftRight_M : (normShiftRight n).M = n.M / 2 := Nat.shiftRight_one n.M

@[simp] theorem normShiftRight_E : (normShiftRight n).E = n.E + 1 := rfl

theorem normShiftRight_guard : (normShiftRight n).gr.getLsbD 1 = n.M.testBit 0 := by
  rw [normShiftRight, BitVec.getLsbD_append, if_neg (by decide), BitVec.getLsbD_ofBool]
  exact Bool.true_and _

theorem normShiftRight_round : (normShiftRight n).gr.getLsbD 0 = n.gr.getLsbD 1 := by
  rw [normShiftRight, BitVec.getLsbD_append, if_pos (by decide), BitVec.getLsbD_extractLsb']
  exact Bool.true_and _

@[simp] theorem normShiftRight_st : (normShiftRight n).st = (n.st || n.gr.getLsbD 0) := rfl

end

@[simp] theorem anyBitBelow_zero (x : Nat) : anyBitBelow x 0 = false := by
  simp [anyBitBelow, Nat.mod_one]

/-- One more high bit of an OR over low bits. -/
theorem anyBitBelow_succ_high (x d : Nat) : anyBitBelow x (d + 1) = (anyBitBelow x d || x.testBit d) := by
  have h : x % 2 ^ (d + 1) = x % 2 ^ d + 2 ^ d * (x / 2 ^ d % 2) := by
    rw [pow_succ, Nat.mod_mul]
  unfold anyBitBelow
  rw [h, Nat.testBit_eq_decide_div_mod_eq]
  rcases Nat.mod_two_eq_zero_or_one (x / 2 ^ d) with h2 | h2 <;> rw [h2]
  · simp
  · simp

/-- Until three bits have been shifted out, none lies below the round bit (41_normalize.md R103). -/
theorem anyBitBelow_sub_two (x k : Nat) : anyBitBelow x (k - 2) = (decide (3 ≤ k) && anyBitBelow x (k - 2)) := by
  by_cases hk : 3 ≤ k
  · rw [decide_eq_true hk, Bool.true_and]
  · rw [decide_eq_false hk, Bool.false_and, Nat.sub_eq_zero_of_le (by omega), anyBitBelow_zero]

/-- The magnitude is still too large for 24 bits exactly while fewer than `L - 24` bits have been shifted out. -/
theorem le_div_two_pow_iff_lt_bitLength {x : Nat} (hx : x ≠ 0) (k : Nat) :
    2 ^ 24 ≤ x / 2 ^ k ↔ k < bitLength x - 24 := by
  rw [Nat.le_div_iff_mul_le (Nat.two_pow_pos k), ← pow_add, ← Nat.le_log2 hx, bitLength]
  omega

/-- The working values after `k` right shifts of a magnitude `x` that began at the exponent `e`: where each bit shifted out
has gone (41_normalize.md R103). -/
structure GatheredBits (x : Nat) (e : Int) (k : Nat) (n : NormWork) : Prop where
  magnitude : n.M = x / 2 ^ k
  exponent : n.E = e + k
  guard : n.gr.getLsbD 1 = (decide (1 ≤ k) && x.testBit (k - 1))
  round : n.gr.getLsbD 0 = (decide (2 ≤ k) && x.testBit (k - 2))
  sticky : n.st = anyBitBelow x (k - 2)

/-- Before the first shift nothing has been gathered (41_normalize.md R102). -/
theorem gatheredBits_normStart (m e : Int) : GatheredBits m.natAbs e 0 (normStart m e) where
  magnitude := (Nat.div_one _).symm
  exponent := (Int.add_zero _).symm
  guard := by simp [normStart]
  round := by simp [normStart]
  sticky := (anyBitBelow_zero _).symm

/-- One right shift gathers one more bit. -/
theorem GatheredBits.shiftRight {x k : Nat} {e : Int} {n : NormWork} (h : GatheredBits x e k n) :
    GatheredBits x e (k + 1) (normShiftRight n) where
  magnitude := by rw [normShiftRight_M, h.magnitude, Nat.div_div_eq_div_mul, pow_succ]
  exponent := by rw [normShiftRight_E, h.exponent]; omega
  guard := by rw [normShiftRight_guard, h.magnitude, Nat.testBit_div_two_pow]; simp
  round := by rw [normShiftRight_round, h.guard]; simp
  sticky := by
    rw [normShiftRight_st, h.sticky, h.round]
    match k with
    | 0 => simp
    | 1 => simp
    | k + 2 => simp [anyBitBelow_succ_high x k]

/-- With enough iterations left, the loop shifts out exactly the bits above the 24 kept ones. -/
theorem GatheredBits.normRight_of_fuel {x k : Nat} {e : Int} {n : NormWork} (hx : x ≠ 0) (h : GatheredBits x e k n)
    (hk : k ≤ bitLength x - 24) {fuel : Nat} (hfuel : bitLength x - 24 ≤ k + fuel) :
    GatheredBits x e (bitLength x - 24) (normRight fuel n) := by
  induction fuel generalizing k n with
  | zero =>
    have hdone : k = bitLength x - 24 := by omega
    exact hdone ▸ h
  | succ fuel ih =>
    have hloop : 2 ^ 24 ≤ n.M ↔ k < bitLength x - 24 := h.magnitude ▸ le_div_two_pow_iff_lt_bitLength hx k
    by_cases hbig : 2 ^ 24 ≤ n.M
    · rw [normRight_big hbig]
      have hlt := hloop.mp hbig
      exact ih h.shiftRight (by omega) (by omega)
    · have hdone : k = bitLength x - 24 := by omega
      rw [normRight_small (by omega)]
      exact hdone ▸ h

section
variable {m : Int} (hm : m ≠ 0) (e : Int)
include hm

/-- The engine's right normalization gathers the `L - 24` low bits of its magnitude. -/
theorem gatheredBits_normRight :
    GatheredBits m.natAbs e (bitLength m.natAbs - 24) (normRight m.natAbs.log2 (normStart m e)) :=
  (gatheredBits_normStart m e).normRight_of_fuel (Int.natAbs_ne_zero.mpr hm) (Nat.zero_le _) (by unfold bitLength; omega)

/-- The right normalization ends below 2^24. -/
theorem normRight_normStart_M_lt : (normRight m.natAbs.log2 (normStart m e)).M < 2 ^ 24 := by
  rw [(gatheredBits_normRight hm e).magnitude, ← Nat.not_le,
    le_div_two_pow_iff_lt_bitLength (Int.natAbs_ne_zero.mpr hm)]
  exact Nat.lt_irrefl _

end

/-- A right shift that runs never overshoots: it leaves bit 23 set. -/
theorem le_normRight_M {n : NormWork} (h : 2 ^ 24 ≤ n.M) (k : Nat) : 2 ^ 23 ≤ (normRight k n).M := by
  induction k generalizing n with
  | zero => rw [normRight_zero]; omega
  | succ k ih =>
    have hshift := normShiftRight_M n
    rw [normRight_big h]
    by_cases hbig : 2 ^ 24 ≤ (normShiftRight n).M
    · exact ih hbig
    · rw [normRight_small (by omega)]
      omega

/-- A right normalization that ends below 2^23 has shifted nothing. -/
theorem normRight_eq_self_of_lt {n : NormWork} {k : Nat} (h : (normRight k n).M < 2 ^ 23) : normRight k n = n := by
  by_cases hbig : 2 ^ 24 ≤ n.M
  · have hset := le_normRight_M hbig k
    omega
  · exact normRight_small (by omega) k

/-- The right normalization of a nonzero magnitude stays nonzero. -/
theorem normRight_M_pos {n : NormWork} (h : 0 < n.M) (k : Nat) : 0 < (normRight k n).M := by
  by_cases hlow : (normRight k n).M < 2 ^ 23
  · rwa [normRight_eq_self_of_lt hlow]
  · omega

/-! ### The left normalization (41_normalize.md R104) -/

@[simp] theorem normShiftLeft_M (n : NormWork) : (normShiftLeft n).M = 2 * n.M := by
  simp [normShiftLeft, Nat.shiftLeft_eq, Nat.mul_comm]

@[simp] theorem normShiftLeft_E (n : NormWork) : (normShiftLeft n).E = n.E - 1 := rfl

/-- Iterations enough to bring the leading one to bit 23 do so, and never carry it past. -/
theorem normLeft_M_range {n : NormWork} {k : Nat} (hlt : n.M < 2 ^ 24) (hreach : 2 ^ 23 ≤ n.M * 2 ^ k) :
    2 ^ 23 ≤ (normLeft k n).M ∧ (normLeft k n).M < 2 ^ 24 := by
  induction k generalizing n with
  | zero => exact ⟨by simpa using hreach, hlt⟩
  | succ k ih =>
    by_cases hsmall : n.M < 2 ^ 23
    · rw [normLeft_small hsmall]
      apply ih
      · rw [normShiftLeft_M]; omega
      · rwa [normShiftLeft_M, Nat.mul_comm 2, Nat.mul_assoc, ← pow_succ']
    · rw [normLeft_big (by omega)]
      exact ⟨by omega, hlt⟩

/-- Both normalizations leave a nonzero magnitude with bit 23 as its leading one. -/
theorem normalized_M_range {m : Int} (hm : m ≠ 0) (e : Int) :
    2 ^ 23 ≤ (normLeft 23 (normRight m.natAbs.log2 (normStart m e))).M ∧
      (normLeft 23 (normRight m.natAbs.log2 (normStart m e))).M < 2 ^ 24 := by
  have hpos : 0 < (normRight m.natAbs.log2 (normStart m e)).M := normRight_M_pos (Int.natAbs_pos.mpr hm) _
  exact normLeft_M_range (normRight_normStart_M_lt hm e) (Nat.le_mul_of_pos_left _ hpos)

/-! ### The rounding step and its carry (41_normalize.md R105 to R108) -/

/-- Less than half is cut off (41_normalize.md R105). -/
theorem roundsUp_of_lt_two {gr : BitVec 2} (h : gr.toNat < 2) (st low : Bool) : roundsUp gr st low = false := by
  have hgr : gr = 0b00#2 ∨ gr = 0b01#2 := by bv_omega
  rcases hgr with rfl | rfl <;> rfl

/-- At the guard alone, the sticky or an odd magnitude decides (41_normalize.md R106). -/
@[simp] theorem roundsUp_guard (st low : Bool) : roundsUp 0b10#2 st low = (st || low) := rfl

/-- Guard and round together are above half (41_normalize.md R107). -/
@[simp] theorem roundsUp_guard_round (st low : Bool) : roundsUp 0b11#2 st low = true := rfl

theorem normRound_M (n : NormWork) :
    (normRound n).M = if roundsUp n.gr n.st (n.M.testBit 0) then n.M + 1 else n.M := by
  unfold normRound
  split <;> rfl

/-- Rounding adds at most one to the magnitude. -/
theorem normRound_M_bounds (n : NormWork) : n.M ≤ (normRound n).M ∧ (normRound n).M ≤ n.M + 1 := by
  rw [normRound_M]
  split <;> omega

/-- The carry renormalization of 2^24 (41_normalize.md R108). -/
theorem normCarry_of_eq {n : NormWork} (h : n.M = 2 ^ 24) : (normCarry n).M = 2 ^ 23 ∧ (normCarry n).E = n.E + 1 := by
  rw [normCarry, if_pos h]
  exact ⟨by rw [h]; rfl, rfl⟩

theorem normCarry_of_ne {n : NormWork} (h : n.M ≠ 2 ^ 24) : normCarry n = n := if_neg h

/-- A rounded magnitude of 2^23 .. 2^24 ends in 2^23 .. 2^24 - 1. -/
theorem normCarry_M_range {n : NormWork} (hlow : 2 ^ 23 ≤ n.M) (hhigh : n.M ≤ 2 ^ 24) :
    2 ^ 23 ≤ (normCarry n).M ∧ (normCarry n).M < 2 ^ 24 := by
  by_cases h : n.M = 2 ^ 24
  · obtain ⟨hM, -⟩ := normCarry_of_eq h
    omega
  · rw [normCarry_of_ne h]
    omega

/-! ### The zero (41_normalize.md R101) -/

theorem norm_eq_none_iff (m e : Int) : norm m e = none ↔ m = 0 := by
  refine ⟨fun h => ?_, fun h => if_pos h⟩
  by_contra hm
  rw [norm_of_ne_zero hm] at h
  cases h

end Sys2Proof.Machine

namespace Sys2Proof

open Sys2Proof.Machine

/-- Settles O13: the loop keeps count of the bits shifted out, one at a time, and stops after `L - 24` of them. -/
theorem rightNormalizationGathersDiscardedBits : Obligations.RightNormalizationGathersDiscardedBits := by
  refine ⟨fun n => ?_, fun m e hm => ?_⟩
  · exact ⟨normShiftRight_st n, normShiftRight_guard n, normShiftRight_round n, normShiftRight_M n, normShiftRight_E n⟩
  · obtain ⟨hmagnitude, hexponent, hguard, hround, hsticky⟩ := gatheredBits_normRight hm e
    refine ⟨_, rfl, hmagnitude, normRight_normStart_M_lt hm e, hexponent, hguard, hround, hsticky.trans ?_⟩
    exact anyBitBelow_sub_two _ _

/-- Settles O14: a magnitude below 2^23 shows that no right shift ran, and 23 left shifts are enough for any nonzero one. -/
theorem leftNormalizationReachesTheTargetRange : Obligations.LeftNormalizationReachesTheTargetRange := by
  refine ⟨fun n => ⟨normShiftLeft_M n, normShiftLeft_E n⟩, fun m e hm => ⟨normalized_M_range hm e, fun hlow => ?_⟩⟩
  have hstart := normRight_eq_self_of_lt hlow
  obtain ⟨hgr, hst⟩ := normLeft_keeps_rounding_bits 23 (normStart m e)
  rw [hstart]
  exact ⟨rfl, hgr, hst⟩

/-- Settles O16: rounding adds at most one to a magnitude below 2^24, so the carry step meets 2^24 or nothing to do. -/
theorem carryIsRenormalizedOnce : Obligations.CarryIsRenormalizedOnce := by
  intro m e hm
  obtain ⟨hlow, hhigh⟩ := normalized_M_range hm e
  obtain ⟨hge, hle⟩ := normRound_M_bounds (normLeft 23 (normRight m.natAbs.log2 (normStart m e)))
  refine ⟨_, rfl, by omega, fun hcarry => normCarry_of_eq hcarry, fun hne => ?_, normCarry_M_range (by omega) (by omega)⟩
  rw [normWork, normCarry_of_ne hne]
  exact ⟨rfl, rfl⟩

/-- Settles O12: the engine constructs a result for every nonzero integer, and the conversion of zero takes the zero word. -/
theorem normalizerGivesZeroForZeroOnly : Obligations.NormalizerGivesZeroForZeroOnly := by
  refine ⟨norm_eq_none_iff, fun a ha => ?_⟩
  rcases i2fEngine_cases a with ⟨-, hzero⟩ | ⟨hne, -⟩
  · rw [hzero, resultWord_word, constructedZero]
  · exact absurd ha hne

/-- Settles O15: the rounding decision for each value of guard and round. -/
theorem roundingFollowsGuardRoundSticky : Obligations.RoundingFollowsGuardRoundSticky := by
  intro n
  rw [normRound_M]
  refine ⟨fun hgr => ?_, fun hgr => ?_, fun hgr => ?_⟩
  · rw [roundsUp_of_lt_two hgr]
    rfl
  · simp [hgr, Nat.testBit_zero]
  · rw [hgr, roundsUp_guard_round, if_pos rfl]

end Sys2Proof
end

section
/-! Settles the statements of 42_addsub.md about a zero operand and about the alignment step. -/

namespace Sys2Proof.Machine

/-! ### A zero operand (42_addsub.md R131, R132) -/

/-- Negation keeps the exponent field: the sign is bit 31, above it (40_representation.md R86). -/
@[simp] theorem expField_neg (w : Word) : expField (neg w) = expField w := by
  have hexponent : (unpack (neg w)).exponent = (unpack w).exponent := by
    refine BitVec.eq_of_getLsbD_eq fun k hk => ?_
    have hbit : 23 + k ≠ 31 := by omega
    simp only [unpack, BitVec.getLsbD_extractLsb', getLsbD_neg, decide_eq_false hbit, Bool.xor_false]
  rw [expField, hexponent, expField]

section
variable (fold : AlignStickyFold) {a b : Word} (s : State)

/-- A second operand with exponent field 0 is tested first, and gives the first operand. -/
theorem execAddWith_zero_right (hb : expField b = 0) : execAddWith fold a b s = .next (s.writeY a) := by
  have hzero : isZero b = true := (isZero_iff_expField b).mpr hb
  rw [execAddWith, addEngine, if_pos hzero, resultWord_word]

theorem execAddWith_zero_left (hb : expField b ≠ 0) (ha : expField a = 0) :
    execAddWith fold a b s = .next (s.writeY b) := by
  have hzero : isZero a = true := (isZero_iff_expField a).mpr ha
  rw [execAddWith, addEngine, if_neg (mt (isZero_iff_expField b).mp hb), if_pos hzero, resultWord_word]

/-- Subtraction is addition of the negated second operand (42_addsub.md R131). -/
theorem execSubWith_eq (a b : Word) : execSubWith fold a b s = execAddWith fold a (neg b) s := rfl

end

/-! ### The bits shifted out and the fold of the sticky (42_addsub.md R135) -/

theorem anyBitBelow_eq_false_iff (x d : Nat) : anyBitBelow x d = false ↔ 2 ^ d ∣ x := by
  rw [anyBitBelow, bne_eq_false_iff_eq, Nat.dvd_iff_mod_eq_zero]

/-- A bit of a nonzero value below 2^d lies below position `d`. -/
theorem anyBitBelow_of_lt {x d : Nat} (hpos : 0 < x) (hlt : x < 2 ^ d) : anyBitBelow x d = true := by
  rw [← Bool.not_eq_false, anyBitBelow_eq_false_iff]
  exact Nat.not_dvd_of_pos_of_lt hpos hlt

@[simp] theorem foldSticky_or (x : Nat) (sticky : Bool) : foldSticky .or x sticky = x ||| sticky.toNat := rfl

@[simp] theorem foldSticky_replace (x : Nat) (sticky : Bool) :
    foldSticky .replace x sticky = x - x % 2 + sticky.toNat := by
  rw [foldSticky, Nat.toNat_testBit, pow_zero, Nat.div_one]

/-- ORing a one into bit 0 puts it in bit 0's place: with a sticky of 1 the two folds agree. -/
theorem or_one_eq (x : Nat) : x ||| 1 = x - x % 2 + 1 := by
  have hhigh : (x ||| 1) / 2 = x / 2 := Nat.or_div_two.trans (Nat.or_zero _)
  have hlow : (x ||| 1) % 2 = 1 := by simp
  omega

/-- The folds differ exactly where REPLACE loses a one: bit 0 is set and no one was shifted out. -/
theorem foldSticky_replace_ne_or_iff (x : Nat) (sticky : Bool) :
    foldSticky .replace x sticky ≠ foldSticky .or x sticky ↔ x.testBit 0 = true ∧ sticky = false := by
  rw [foldSticky_replace, foldSticky_or, Nat.testBit_zero, decide_eq_true_iff]
  cases sticky with
  | false =>
    rw [Bool.toNat_false, Nat.or_zero, Nat.add_zero, eq_self, and_true]
    omega
  | true =>
    rw [Bool.toNat_true, or_one_eq]
    simp

/-- The alignment loop and its fold are their closed form, for every value and distance. -/
theorem align_eq_closedAlign (fold : AlignStickyFold) (x d : Nat) : align fold x d = closedAlign fold x d := by
  rw [align, alignLoop_eq, closedAlign, Bool.false_or]

theorem align_or_eq (x d : Nat) : align .or x d = (x / 2 ^ d) ||| (anyBitBelow x d).toNat := by
  rw [align_eq_closedAlign, closedAlign, foldSticky_or, Nat.shiftRight_eq_div_pow]

theorem align_replace_eq (x d : Nat) : align .replace x d = x / 2 ^ d - x / 2 ^ d % 2 + (anyBitBelow x d).toNat := by
  rw [align_eq_closedAlign, closedAlign, foldSticky_replace, Nat.shiftRight_eq_div_pow]

/-- The two readings align differently exactly when bit `d` is set and none below it is. -/
theorem align_replace_ne_or_iff (x d : Nat) :
    align .replace x d ≠ align .or x d ↔ x.testBit d = true ∧ anyBitBelow x d = false := by
  rw [align_eq_closedAlign, align_eq_closedAlign, closedAlign, closedAlign, foldSticky_replace_ne_or_iff,
    Nat.testBit_shiftRight, Nat.add_zero]

/-- A distance beyond every bit leaves the sticky alone. -/
theorem align_or_of_lt {x d : Nat} (hpos : 0 < x) (hlt : x < 2 ^ d) : align .or x d = 1 := by
  rw [align_or_eq, Nat.div_eq_of_lt hlt, anyBitBelow_of_lt hpos hlt]
  rfl

/-- With no one among the bits shifted out, the OR fold is the plain shift. -/
theorem align_or_of_dvd {x d : Nat} (h : 2 ^ d ∣ x) : align .or x d = x / 2 ^ d := by
  rw [align_or_eq, (anyBitBelow_eq_false_iff x d).mpr h, Bool.toNat_false, Nat.or_zero]

/-- Only the three extension bits lie below bit 3, and they are 0 (42_addsub.md R133). -/
theorem two_pow_dvd_of_mod_eight {x d : Nat} (hx : x % 8 = 0) (hd : d ≤ 3) : 2 ^ d ∣ x :=
  (pow_dvd_pow 2 hd).trans (Nat.dvd_of_mod_eq_zero hx)

/-- Bit `d` of an extended significand is 0 for `d` below 3. -/
theorem three_le_of_testBit {x d : Nat} (hx : x % 8 = 0) (hbit : x.testBit d = true) : 3 ≤ d := by
  by_contra hd
  have hlow : anyBitBelow x (d + 1) = false :=
    (anyBitBelow_eq_false_iff x (d + 1)).mpr (two_pow_dvd_of_mod_eight hx (by omega))
  rw [anyBitBelow_succ_high, hbit, Bool.or_true] at hlow
  cases hlow

end Sys2Proof.Machine

namespace Sys2Proof

open Sys2Proof.Machine

/-- Settles O19: the zero tests of ADD, and for SUB the same tests on the negation, which keeps the exponent field. -/
theorem addReturnsOtherOperandOfAZero : Obligations.AddReturnsOtherOperandOfAZero := by
  intro fold a b s
  refine ⟨fun hb => ?_, fun hb ha => ?_⟩
  · have hneg : expField (neg b) = 0 := (expField_neg b).trans hb
    exact ⟨execAddWith_zero_right fold s hb, (execSubWith_eq fold s a b).trans (execAddWith_zero_right fold s hneg)⟩
  · have hneg : expField (neg b) ≠ 0 := expField_neg b ▸ hb
    exact ⟨execAddWith_zero_left fold s hb ha, (execSubWith_eq fold s a b).trans (execAddWith_zero_left fold s hneg ha)⟩

/-- Settles O21: the closed forms hold for every value; the bounds of an extended significand give the far distances and its
three zero bits the near ones. -/
theorem alignmentFoldsTheSticky : Obligations.AlignmentFoldsTheSticky := by
  intro x d hlow hhigh hmod
  refine ⟨align_or_eq x d, align_replace_eq x d, fun hfar => ?_, fun hnear => ?_, fun hdiffer => ?_⟩
  · have hlt : x < 2 ^ d := hhigh.trans_le (Nat.pow_le_pow_right (by decide) hfar)
    exact align_or_of_lt (by omega) hlt
  · have hdvd : 2 ^ d ∣ x := two_pow_dvd_of_mod_eight hmod hnear
    exact ⟨(anyBitBelow_eq_false_iff x d).mpr hdvd, align_or_of_dvd hdvd⟩
  · obtain ⟨hbit, hnone⟩ := (align_replace_ne_or_iff x d).mp hdiffer
    exact ⟨three_le_of_testBit hmod hbit, hbit, hnone⟩

end Sys2Proof
end

section
/-! Settles the statements of 43_multiply.md about the product, its window, the zero product and the sign; the sign of a
quotient (44_divide.md R185) is the same statement. -/

namespace Sys2Proof.Machine

/-! ### The product of two significands (43_multiply.md R161) -/

/-- The 24 steps of the loop use every bit of a 24-bit factor. -/
theorem product_eq_mul {sb : Nat} (h : sb < 2 ^ 24) (sa : Nat) : product sa sb = sa * sb := by
  rw [product, shiftAdd_eq, Nat.mod_eq_of_lt h]

theorem product_sig (a b : Word) : product (sig a) (sig b) = sig a * sig b := product_eq_mul (sig_lt b) (sig a)

/-- A nonzero exponent field puts the implied one at bit 23 (40_representation.md R84). -/
theorem two_pow_le_sig {w : Word} (h : expField w ≠ 0) : 2 ^ 23 ≤ sig w := by
  rw [sig_of_expField_ne h]
  exact Nat.le_add_right _ _

theorem sig_eq_zero_iff (w : Word) : sig w = 0 ↔ (unpack w).exponent = 0#8 ∧ (unpack w).fraction = 0#23 := by
  by_cases he : (unpack w).exponent = 0#8
  · rw [sig, if_pos he, ← BitVec.toNat_inj (x := (unpack w).fraction)]
    exact (and_iff_right he).symm
  · have hpos : sig w ≠ 0 := by
      rw [sig, if_neg he]
      omega
    exact iff_of_false hpos fun ⟨hexponent, _⟩ => he hexponent

/-! ### The window (43_multiply.md R162) -/

/-- The sticky as an existence: some bit below `d` is 1 (00_scope.md R9). -/
theorem anyBitBelow_eq_true_iff (x d : Nat) : anyBitBelow x d = true ↔ ∃ k < d, x.testBit k = true := by
  induction d with
  | zero => simp
  | succ d ih => rw [anyBitBelow_succ_high, Bool.or_eq_true, ih, Nat.exists_lt_succ_right]

/-- The window as a quotient and its sticky, the cut a number. -/
theorem productWindow_eq (p : Nat) : productWindow p = p / 2 ^ 20 ||| (anyBitBelow p 20).toNat := by
  rw [productWindow, Nat.shiftRight_eq_div_pow]

theorem productWindow_testBit_zero (p : Nat) :
    (productWindow p).testBit 0 = (p.testBit 20 || anyBitBelow p 20) := by
  rw [productWindow_eq, Nat.testBit_or, Nat.testBit_div_two_pow, Nat.testBit_bool_toNat, decide_eq_true rfl, Bool.true_and]

theorem productWindow_testBit_succ (p k : Nat) : (productWindow p).testBit (k + 1) = p.testBit (k + 21) := by
  rw [productWindow_eq, Nat.testBit_or, Nat.testBit_div_two_pow, Nat.testBit_bool_toNat, decide_eq_false k.succ_ne_zero,
    Bool.false_and, Bool.or_false]

theorem productWindow_lt {p : Nat} (h : p < 2 ^ 48) : productWindow p < 2 ^ 28 := by
  have hhigh : p / 2 ^ 20 < 2 ^ 28 := by omega
  rw [productWindow_eq]
  exact Nat.or_lt_two_pow hhigh ((Bool.toNat_lt _).trans (by decide))

/-- The sticky keeps the window of a nonzero product from vanishing (43_multiply.md R163). -/
theorem productWindow_eq_zero_iff (p : Nat) : productWindow p = 0 ↔ p = 0 := by
  rw [productWindow_eq, Nat.or_eq_zero_iff, Bool.toNat_eq_zero, anyBitBelow_eq_false_iff]
  omega

/-! ### The signed zero and the sign (43_multiply.md R163, R165; 44_divide.md R185) -/

@[simp] theorem unpack_signedZero (s : BitVec 1) : unpack (signedZero s) = ⟨s, 0#8, 0#23⟩ := by
  rw [signedZero, unpack_pack]
  rfl

/-- A product carries the XOR of the signs in the engine's zero branch and in its rounded branch. -/
theorem sign_instrResult_mul (a b : Word) : (unpack (instrResult (.mul a b))).sign = signXor a b := by
  change (unpack (resultWord (mulEngine a b))).sign = signXor a b
  rcases mulEngine_cases a b with ⟨-, hzero⟩ | ⟨-, n, -, hparts⟩
  · rw [hzero, resultWord_word, unpack_signedZero]
  · rw [hparts, resultWord_parts, unpack_pack]

/-- A quotient carries the XOR of the signs in the engine's zero branch and in its rounded branch, whatever the divisor. -/
theorem sign_instrResult_div (a b : Word) : (unpack (instrResult (.div a b))).sign = signXor a b := by
  change (unpack (resultWord (divEngine a b))).sign = signXor a b
  rcases divEngine_cases a b with ⟨-, hzero⟩ | ⟨-, n, -, hparts⟩
  · rw [hzero, resultWord_word, unpack_signedZero]
  · rw [hparts, resultWord_parts, unpack_pack]

theorem instrResult_mul_of_window_zero {a b : Word} (h : productWindow (product (sig a) (sig b)) = 0) :
    instrResult (.mul a b) = signedZero (signXor a b) := by
  change resultWord (mulEngine a b) = signedZero (signXor a b)
  rcases mulEngine_cases a b with ⟨-, hzero⟩ | ⟨hne, -⟩
  · rw [hzero, resultWord_word]
  · exact absurd h hne

end Sys2Proof.Machine

namespace Sys2Proof

open Sys2Proof.Machine

/-- Settles O28: the loop is the product, and a significand's range gives the product's. -/
theorem shiftAndAddIsTheExactProduct : Obligations.ShiftAndAddIsTheExactProduct := by
  intro a b
  rw [product_sig a b, product_sig b a]
  refine ⟨rfl, ?_, fun ha hb => ?_, Nat.mul_comm _ _⟩
  · calc sig a * sig b < 2 ^ 24 * 2 ^ 24 := Nat.mul_lt_mul'' (sig_lt a) (sig_lt b)
      _ = 2 ^ 48 := by norm_num
  · calc 2 ^ 46 = 2 ^ 23 * 2 ^ 23 := by norm_num
      _ ≤ sig a * sig b := Nat.mul_le_mul (two_pow_le_sig ha) (two_pow_le_sig hb)

/-- Settles O29: the sticky reaches bit 0 only, and it is 1 exactly when one of the 20 bits cut off is. -/
theorem productWindowKeepsHighBitsAndSticky : Obligations.ProductWindowKeepsHighBitsAndSticky := by
  intro P hP
  refine ⟨productWindow_lt hP, ?_, productWindow_testBit_succ P⟩
  have hsticky : anyBitBelow P 20 = decide (∃ k : Fin 20, P.testBit k = true) := by
    rw [Bool.eq_iff_iff, decide_eq_true_iff, anyBitBelow_eq_true_iff, Fin.exists_iff]
    simp only [exists_prop]
  rw [productWindow_testBit_zero, hsticky]

/-- Settles O30: no nonzero product has a zero window, and the engine's zero branch delivers the zero of the XOR sign. -/
theorem mulByZeroGivesSignedZero : Obligations.MulByZeroGivesSignedZero := by
  intro a b
  refine ⟨productWindow_eq_zero_iff _, ?_, sig_eq_zero_iff, fun hwindow s => ⟨_, exec_eq (.mul a b) s, ?_⟩⟩
  · rw [product_sig, Nat.mul_eq_zero]
  · rw [instrResult_mul_of_window_zero hwindow, unpack_signedZero, signXor]

/-- Settles O41: both engines give their result the XOR sign, on every branch. -/
theorem productAndQuotientSignIsXor : Obligations.ProductAndQuotientSignIsXor := fun a b s =>
  ⟨_, _, exec_eq (.mul a b) s, sign_instrResult_mul a b, exec_eq (.div a b) s, sign_instrResult_div a b⟩

end Sys2Proof
end

section
/-! Settles the statements of 44_divide.md about the quotient's sticky slot and the zero quotient (R182, R183). -/

namespace Sys2Proof.Machine

/-! ### The quotient and the remainder of the long division (44_divide.md R181) -/

/-- Each iteration puts one bit below the quotient's bits, whatever the divisor. -/
theorem divLoop_quotient_lt (D N n : Nat) : (divLoop D n { q := 0, r := N }).q < 2 ^ n := by
  induction n with
  | zero => exact Nat.one_pos
  | succ n ih =>
    rw [divLoop_succ, pow_succ]
    rcases Nat.lt_or_ge (divLoop D n { q := 0, r := N }).r D with h | h
    · rw [divStep_of_lt h]; dsimp only; omega
    · rw [divStep_of_ge h]; dsimp only; omega

/-- A zero divisor is subtracted in every iteration, so every quotient bit is 1 (60_exceptions.md R203). -/
theorem divLoop_zero_divisor_quotient (N n : Nat) : (divLoop 0 n { q := 0, r := N }).q + 1 = 2 ^ n := by
  induction n with
  | zero => rfl
  | succ n ih =>
    rw [divLoop_succ, divStep_of_ge (Nat.zero_le _), pow_succ]
    dsimp only
    omega

/-- What the whole division keeps (44_divide.md R181). -/
theorem longDivision_keeps (N D : Nat) :
    2 ^ 26 * N = 2 * ((longDivision N D).q * D) + (longDivision N D).r := divLoop_keeps D N 26

theorem longDivision_quotient_lt (N D : Nat) : (longDivision N D).q < 2 ^ 26 := divLoop_quotient_lt D N 26

theorem longDivision_zero_divisor_quotient (N : Nat) : (longDivision N 0).q = 2 ^ 26 - 1 :=
  Nat.eq_sub_of_add_eq (divLoop_zero_divisor_quotient N 26)

/-- Quotient and remainder vanish together for a zero dividend only, and not when the divisor is zero too
(44_divide.md R183). -/
theorem longDivision_eq_zero_iff (N D : Nat) :
    (longDivision N D).q = 0 ∧ (longDivision N D).r = 0 ↔ N = 0 ∧ D ≠ 0 := by
  have hkeeps := longDivision_keeps N D
  constructor
  · rintro ⟨hq, hr⟩
    refine ⟨?_, ?_⟩
    · rw [hq, hr] at hkeeps
      omega
    · rintro rfl
      rw [longDivision_zero_divisor_quotient] at hq
      exact absurd hq (by decide)
  · rintro ⟨rfl, hD⟩
    have hqD : (longDivision 0 D).q * D = 0 := by omega
    exact ⟨(Nat.mul_eq_zero.mp hqD).resolve_right hD, by omega⟩

/-! ### The sticky slot (44_divide.md R182) -/

/-- The slot below the quotient's bits is empty, so the sticky is added there. -/
theorem quotientWithSticky_eq (t : Dividing) : quotientWithSticky t = 2 * t.q + (if t.r = 0 then 0 else 1) := by
  have hsum : quotientWithSticky t = t.q <<< 1 + (t.r != 0).toNat :=
    (Nat.shiftLeft_add_eq_or_of_lt (Bool.toNat_lt _) _).symm
  rw [hsum, Nat.shiftLeft_eq, pow_one, Nat.mul_comm]
  split <;> simp [*]

theorem quotientWithSticky_lt {t : Dividing} {n : Nat} (h : t.q < 2 ^ n) : quotientWithSticky t < 2 ^ (n + 1) := by
  rw [quotientWithSticky_eq, pow_succ]
  split <;> omega

/-- The sticky keeps an inexact quotient from vanishing (44_divide.md R183). -/
theorem quotientWithSticky_eq_zero_iff (t : Dividing) : quotientWithSticky t = 0 ↔ t.q = 0 ∧ t.r = 0 := by
  rw [quotientWithSticky_eq]
  split <;> omega

/-! ### The zero quotient (44_divide.md R183) -/

theorem quotientWithSticky_longDivision_eq_zero_iff (N D : Nat) :
    quotientWithSticky (longDivision N D) = 0 ↔ N = 0 ∧ D ≠ 0 :=
  (quotientWithSticky_eq_zero_iff _).trans (longDivision_eq_zero_iff N D)

theorem instrResult_div_of_quotient_zero {a b : Word} (h : quotientWithSticky (longDivision (sig a) (sig b)) = 0) :
    instrResult (.div a b) = signedZero (signXor a b) := by
  change resultWord (divEngine a b) = signedZero (signXor a b)
  rcases divEngine_cases a b with ⟨-, hzero⟩ | ⟨hne, -⟩
  · rw [hzero, resultWord_word]
  · exact absurd h hne

end Sys2Proof.Machine

namespace Sys2Proof

open Sys2Proof.Machine

/-- Settles O35: the sticky takes the empty slot, and 26 iterations give 26 quotient bits above it. -/
theorem quotientStickyMarksARemainder : Obligations.QuotientStickyMarksARemainder := fun a b =>
  ⟨quotientWithSticky_eq _, quotientWithSticky_lt (longDivision_quotient_lt (sig a) (sig b))⟩

/-- Settles O36: what the division keeps makes the quotient zero for `0` by nonzero only, and the engine's zero branch
delivers the zero of the XOR sign. -/
theorem divOfZeroGivesSignedZero : Obligations.DivOfZeroGivesSignedZero := by
  intro a b
  have hzero := quotientWithSticky_longDivision_eq_zero_iff (sig a) (sig b)
  refine ⟨hzero, fun ha hb s => ⟨_, exec_eq (.div a b) s, ?_⟩⟩
  rw [instrResult_div_of_quotient_zero (hzero.mpr ⟨ha, hb⟩), unpack_signedZero, signXor]

end Sys2Proof
end

section
/-! Settles the statement of 60_exceptions.md, section 1: no step faults, and a command of the op code map gives a result. -/

namespace Sys2Proof.Machine

/-- The core waits while no command is presented (70_reset_and_hazards.md R231). -/
theorem step_of_nothing {s : State} (h : s.fetch = .nothing) : step s = .next s := by
  simp [step, h]

/-- What stands on the inputs and is no command stops the core (70_reset_and_hazards.md R230, R235). -/
theorem step_of_stopped {s : State} {r : Refusal} (h : s.fetch = .stopped r) : step s = .refused r := by
  simp [step, h]

/-- A step goes on or is refused: there is no third outcome (60_exceptions.md R200). -/
theorem step_next_or_refused (s : State) : (∃ t, step s = .next t) ∨ ∃ r, step s = .refused r := by
  cases hfetch : s.fetch with
  | nothing => exact .inl ⟨s, step_of_nothing hfetch⟩
  | stopped r => exact .inr ⟨r, step_of_stopped hfetch⟩
  | command c rest =>
    cases hdecode : decode c with
    | ok i => exact .inl ⟨_, step_of_decoded hfetch hdecode⟩
    | error reason =>
      obtain ⟨op⟩ := reason
      exact .inr ⟨_, step_of_reserved hfetch hdecode⟩

theorem step_ne_fault (s : State) (f : Fault) : step s ≠ .fault f := by
  rcases step_next_or_refused s with ⟨t, h⟩ | ⟨r, h⟩ <;> simp [h]

/-- The admitted op codes as numbers: 0b000 to 0b100 (30_encoding.md R62). -/
theorem admitted_iff_op_le (c : CommandWord) : c.admitted = true ↔ c.op.toNat ≤ 4 := by
  simp only [CommandWord.admitted, opAdmitted, decide_eq_true_iff]
  omega

/-- A fetched command of the op code map delivers its result (60_exceptions.md R200). -/
theorem step_of_admitted {s rest : State} {c : CommandWord} (hfetch : s.fetch = .command c rest) (hc : c.admitted = true) :
    ∃ w, step s = .next (rest.writeY w) := by
  obtain ⟨i, hdecode⟩ := decode_of_admitted hc
  exact ⟨instrResult i, step_of_decoded hfetch hdecode⟩

end Sys2Proof.Machine

namespace Sys2Proof

open Sys2Proof.Machine

/-- Settles O47: a step goes on or is refused, and a fetched command of the op code map goes on, so a refused one is reserved. -/
theorem noStepFaultsAndEveryCommandGivesAResult : Obligations.NoStepFaultsAndEveryCommandGivesAResult := by
  refine ⟨step_ne_fault, fun s rest c hfetch hop => ?_, fun s rest c r hfetch hrefused => ?_⟩
  · exact step_of_admitted hfetch ((admitted_iff_op_le c).mpr hop)
  · by_contra hlow
    obtain ⟨w, hnext⟩ := step_of_admitted hfetch ((admitted_iff_op_le c).mpr (by omega))
    simp [hnext] at hrefused

end Sys2Proof
end

section
/-! The encoder against the decoder, and the printed forms: the statements of 30_encoding.md, sections 1 to 3, about command
words and their text. -/

open Sys2Proof.Machine

namespace Sys2Proof

/-! ### The encoder (30_encoding.md R60, R62, R65) -/

@[simp] theorem encode_op (i : Instr) : (encode i).op = i.opcode := ofFields_op _ _ _

@[simp] theorem encode_a (i : Instr) : (encode i).a = i.fieldA := ofFields_a _ _ _

@[simp] theorem encode_b (i : Instr) : (encode i).b = i.fieldB := ofFields_b _ _ _

/-- A command word with an instruction's three fields is its encoding. -/
theorem eq_encode_of_fields {c : CommandWord} {i : Instr} (hop : c.op = i.opcode) (ha : c.a = i.fieldA)
    (hb : c.b = i.fieldB) : c = encode i := by
  rw [encode, ← hop, ← ha, ← hb, ofFields_op_a_b]

/-- The decoder gives back every encoded instruction, row by row of the op code map. -/
@[simp] theorem decode_encode (i : Instr) : decode (encode i) = .ok i := by
  cases i with
  | add a b => rw [decode_of_op_add (encode_op _), encode_a, encode_b, Instr.fieldA, Instr.fieldB]
  | sub a b => rw [decode_of_op_sub (encode_op _), encode_a, encode_b, Instr.fieldA, Instr.fieldB]
  | mul a b => rw [decode_of_op_mul (encode_op _), encode_a, encode_b, Instr.fieldA, Instr.fieldB]
  | div a b => rw [decode_of_op_div (encode_op _), encode_a, encode_b, Instr.fieldA, Instr.fieldB]
  | i2f a => rw [decode_of_op_i2f (encode_op _), encode_a, Instr.fieldA]

/-- I2F drops the `B` field (30_encoding.md R65). -/
@[simp] theorem decode_ofFields_i2f (a b : Word) : decode (CommandWord.ofFields 0b100#3 a b) = .ok (.i2f a) := by
  rw [decode_of_op_i2f (ofFields_op _ _ _), ofFields_a]

/-- The words the decoder reads as an instruction carry its op code and its `A`, and its `B` unless it is I2F. -/
theorem fields_of_decode_eq_ok {c : CommandWord} {i : Instr} (h : decode c = .ok i) :
    c.op = i.opcode ∧ c.a = i.fieldA ∧ (c.b = i.fieldB ∨ i = .i2f c.a) := by
  have op_eq {op : BitVec 3} (hc : c.op.toNat = op.toNat) : c.op = op := BitVec.eq_of_toNat_eq hc
  rcases decode_cases c with ⟨hc, hd⟩ | ⟨hc, hd⟩ | ⟨hc, hd⟩ | ⟨hc, hd⟩ | ⟨hc, hd⟩ | ⟨-, hd⟩ <;> rw [hd] at h <;> cases h
  · exact ⟨op_eq hc, rfl, .inl rfl⟩
  · exact ⟨op_eq hc, rfl, .inl rfl⟩
  · exact ⟨op_eq hc, rfl, .inl rfl⟩
  · exact ⟨op_eq hc, rfl, .inl rfl⟩
  · exact ⟨op_eq hc, rfl, .inr rfl⟩

/-- The preimage of an instruction under the decoder: its encoding, and for I2F the same word with any `B`. -/
theorem decode_eq_ok_iff (c : CommandWord) (i : Instr) :
    decode c = .ok i ↔ c = encode i ∨ ∃ a b : Word, i = .i2f a ∧ c = CommandWord.ofFields 0b100#3 a b := by
  constructor
  · intro h
    obtain ⟨hop, ha, hb | rfl⟩ := fields_of_decode_eq_ok h
    · exact .inl (eq_encode_of_fields hop ha hb)
    · refine .inr ⟨c.a, c.b, rfl, ?_⟩
      have hop' : c.op = 0b100#3 := hop
      rw [← hop', ofFields_op_a_b]
  · rintro (rfl | ⟨a, b, rfl, rfl⟩)
    · exact decode_encode i
    · exact decode_ofFields_i2f a b

/-- Settles O3: the decoder undoes the encoder, and a decoded word has the instruction's fields. -/
theorem decodeInvertsEncode : Obligations.DecodeInvertsEncode := fun c i => ⟨decode_encode i, decode_eq_ok_iff c i⟩

/-- Settles O4: six closed words, one per row of the map and one reserved. -/
theorem sampleWordsDecode : Obligations.SampleWordsDecode := by
  refine ⟨?_, ?_, ?_, ?_, ?_, ?_⟩ <;> decide

end Sys2Proof

namespace Sys2Proof.Machine

/-! ### Hexadecimal digits (30_encoding.md R71) -/

/-- The printed digit is the alphabet's. -/
theorem hexAlphabet_getElem? {n : Nat} (h : n < 16) : hexAlphabet[n]? = some (hexDigit n) := by
  revert n
  decide

/-- A printed digit reads as its value. -/
theorem hexDigit?_hexDigit {n : Nat} (h : n < 16) : hexDigit? (hexDigit n) = some n := by
  revert n
  decide

/-- Digit `j` of `k`, most significant first. -/
theorem hexDigits_getElem? {k j : Nat} (hj : j < k) (n : Nat) :
    (hexDigits k n)[j]? = hexAlphabet[n / 16 ^ (k - 1 - j) % 16]? := by
  rw [hexAlphabet_getElem? (Nat.mod_lt _ (by decide))]
  induction k generalizing n with
  | zero => omega
  | succ k ih =>
    rw [hexDigits]
    by_cases hlast : j = k
    · subst hlast
      rw [List.getElem?_append_right (by simp)]
      simp
    · have hjk : j < k := by omega
      have hexp : k + 1 - 1 - j = (k - 1 - j) + 1 := by omega
      rw [List.getElem?_append_left (by simpa using hjk), ih hjk, hexp, pow_succ', Nat.div_div_eq_div_mul]

theorem readDigits_append (base : Nat) (digit? : Char → Option Nat) (l l' : List Char) (acc : Nat) :
    readDigits base digit? (l ++ l') acc = (readDigits base digit? l acc).bind (readDigits base digit? l') := by
  induction l generalizing acc with
  | nil => rfl
  | cons c cs ih =>
    rw [List.cons_append, readDigits, readDigits]
    cases digit? c with
    | none => rfl
    | some v => exact ih _

/-- Reading printed digits gives the number's last `k` digits below what was read before. -/
theorem readDigits_hexDigits (k n acc : Nat) :
    readDigits 16 hexDigit? (hexDigits k n) acc = some (acc * 16 ^ k + n % 16 ^ k) := by
  induction k generalizing n with
  | zero => simp [hexDigits, readDigits, Nat.mod_one]
  | succ k ih =>
    have hdigit : hexDigit? (hexDigit (n % 16)) = some (n % 16) := hexDigit?_hexDigit (Nat.mod_lt _ (by decide))
    have hmod : n % 16 ^ (k + 1) = n % 16 + 16 * (n / 16 % 16 ^ k) := by rw [pow_succ', Nat.mod_mul]
    rw [hexDigits, readDigits_append, ih, Option.bind_some, readDigits, hdigit, hmod, pow_succ]
    simp only [readDigits]
    congr 1
    ring

/-- A word's eight digits read back as the word. -/
theorem readDigits_hexDigits_word (w : Word) : readDigits 16 hexDigit? (hexDigits 8 w.toNat) 0 = some w.toNat := by
  rw [readDigits_hexDigits, Nat.zero_mul, Nat.zero_add, Nat.mod_eq_of_lt (by omega)]

/-- `k` digits determine a number below `16^k`, since they read back as it. -/
theorem eq_of_hexDigits_eq {k m n : Nat} (hm : m < 16 ^ k) (hn : n < 16 ^ k) (h : hexDigits k m = hexDigits k n) : m = n := by
  have hread := readDigits_hexDigits k m 0
  rw [h, readDigits_hexDigits, Nat.mod_eq_of_lt hm, Nat.mod_eq_of_lt hn] at hread
  simpa using hread.symm

/-! ### The printed form of a command (30_encoding.md R71) -/

@[simp] theorem printEncoded_length (c : CommandWord) : (printEncoded c).length = 19 := by simp [printEncoded]

/-- The digits of `OP`, of `A` and of `B` stand at 0, at 2 and at 11, with the two separators before the words. -/
theorem printEncoded_getElem? (c : CommandWord) :
    (printEncoded c)[0]? = (hexDigits 1 c.op.toNat)[0]? ∧ (printEncoded c)[1]? = some '_' ∧
      (printEncoded c)[10]? = some '_' ∧
      ∀ k < 8, (printEncoded c)[2 + k]? = (hexDigits 8 c.a.toNat)[k]? ∧
        (printEncoded c)[11 + k]? = (hexDigits 8 c.b.toNat)[k]? := by
  have hlen (n : Nat) : (hexDigits 1 c.op.toNat ++ '_' :: hexDigits 8 n).length = 10 := by simp
  refine ⟨?_, ?_, ?_, fun k hk => ⟨?_, ?_⟩⟩
  · simp [printEncoded, hexDigits]
  · simp [printEncoded, hexDigits]
  · rw [printEncoded, List.getElem?_append_right (by simp), hlen]
    rfl
  · rw [printEncoded, List.getElem?_append_left (by simp; omega), List.getElem?_append_right (by simp; omega),
      hexDigits_length, show 2 + k - 1 = k + 1 by omega, List.getElem?_cons_succ]
  · rw [printEncoded, List.getElem?_append_right (by simp; omega), hlen,
      show 11 + k - 10 = k + 1 by omega, List.getElem?_cons_succ]

/-- The printed fields determine the command. -/
theorem printEncoded_injective : Function.Injective printEncoded := by
  intro c d h
  obtain ⟨hfront, hback⟩ := List.append_inj h (by simp)
  obtain ⟨hop, hmid⟩ := List.append_inj hfront (by simp)
  have eq_word (v w : Word) (hvw : '_' :: hexDigits 8 v.toNat = '_' :: hexDigits 8 w.toNat) : v = w :=
    BitVec.eq_of_toNat_eq (eq_of_hexDigits_eq v.isLt w.isLt (List.cons.inj hvw).2)
  have heq : c.op = d.op := BitVec.eq_of_toNat_eq (eq_of_hexDigits_eq (by omega) (by omega) hop)
  rw [← ofFields_op_a_b c, ← ofFields_op_a_b d, heq, eq_word _ _ hmid, eq_word _ _ hback]

/-! ### The assembly text of an instruction (30_encoding.md R70) -/

/-- A character that neither ends a token nor is one. -/
def plainChar (c : Char) : Bool := c != ' ' && c != ',' && c != '='

/-- Plain characters join the token being read. -/
theorem tokens_plain_append {l : List Char} (hl : l.all plainChar = true) (rest cur : List Char) :
    tokens (l ++ rest) cur = tokens rest (cur ++ l) := by
  induction l generalizing cur with
  | nil => simp
  | cons c cs ih =>
    obtain ⟨hc, hcs⟩ : plainChar c = true ∧ cs.all plainChar = true := by simpa using hl
    obtain ⟨⟨hspace, hcomma⟩, hequals⟩ : (c ≠ ' ' ∧ c ≠ ',') ∧ c ≠ '=' := by simpa [plainChar] using hc
    rw [List.cons_append, tokens, if_neg hspace, if_neg (by tauto), ih hcs]
    simp

theorem plainChar_hexDigit {n : Nat} (h : n < 16) : plainChar (hexDigit n) = true := by
  revert n
  decide

theorem hexDigits_all_plainChar (k n : Nat) : (hexDigits k n).all plainChar = true := by
  induction k generalizing n with
  | zero => rfl
  | succ k ih => rw [hexDigits, List.all_append, ih, List.all_cons, plainChar_hexDigit (Nat.mod_lt _ (by decide))]; rfl

theorem printOperand_hex_all_plainChar (w : Word) : (printOperand (.hex w)).all plainChar = true := by
  rw [printOperand, List.all_cons, List.all_cons, hexDigits_all_plainChar]
  rfl

theorem printTwoOp_all_plainChar (m : TwoOp) : (printTwoOp m).all plainChar = true := by
  cases m <;> decide

/-- A space ends the token before it. -/
theorem tokens_space {cur : List Char} (hcur : cur ≠ []) (rest : List Char) :
    tokens (' ' :: rest) cur = cur :: tokens rest [] := by
  simp [tokens, flushToken, hcur]

/-- A comma and the space after it end the token before them, and the comma is a token. -/
theorem tokens_comma_space {cur : List Char} (hcur : cur ≠ []) (rest : List Char) :
    tokens (',' :: ' ' :: rest) cur = cur :: [','] :: tokens rest [] := by
  simp [tokens, flushToken, hcur]

/-- The end of the text ends the token before it. -/
theorem tokens_nil {cur : List Char} (hcur : cur ≠ []) : tokens [] cur = [cur] := by
  simp [tokens, flushToken, hcur]

theorem tokens_plain {l : List Char} (hl : l.all plainChar = true) (hne : l ≠ []) : tokens l [] = [l] := by
  have h := tokens_plain_append hl [] []
  rw [List.append_nil, List.nil_append] at h
  rw [h, tokens_nil hne]

@[simp] theorem printOperand_hex_ne_nil (w : Word) : printOperand (.hex w) ≠ [] := List.cons_ne_nil _ _

/-- The tokens of a printed command of two words. -/
theorem tokens_printCommand_two (m : TwoOp) (a b : Word) :
    tokens (printCommand (.two m (.hex a) (.hex b))) [] =
      [printTwoOp m, printOperand (.hex a), [','], printOperand (.hex b)] := by
  have hm : printTwoOp m ≠ [] := by cases m <;> decide
  rw [printCommand, List.append_assoc, tokens_plain_append (printTwoOp_all_plainChar m), List.nil_append, List.cons_append,
    tokens_space hm, tokens_plain_append (printOperand_hex_all_plainChar a), List.nil_append,
    tokens_comma_space (printOperand_hex_ne_nil a), tokens_plain (printOperand_hex_all_plainChar b) (printOperand_hex_ne_nil b)]

/-- The tokens of a printed conversion of a word. -/
theorem tokens_printCommand_i2f (a : Word) :
    tokens (printCommand (.i2f (.hex a))) [] = [['I', '2', 'F'], printOperand (.hex a)] := by
  have htext : printCommand (.i2f (.hex a)) = ['I', '2', 'F'] ++ ' ' :: printOperand (.hex a) := rfl
  rw [htext, tokens_plain_append (by decide), List.nil_append, tokens_space (by decide),
    tokens_plain (printOperand_hex_all_plainChar a) (printOperand_hex_ne_nil a)]

/-- A printed word reads back as it. -/
theorem parseOperand_printOperand_hex (w : Word) : parseOperand (printOperand (.hex w)) = some (.hex w) := by
  have hword : parseHexWord (printOperand (.hex w)) = some w := by
    rw [printOperand, parseHexWord, if_pos (hexDigits_length 8 _), readDigits_hexDigits_word, Option.map_some,
      BitVec.ofNat_toNat, BitVec.setWidth_eq]
  rw [parseOperand, hword]

theorem parseTwoOp_printTwoOp (m : TwoOp) : parseTwoOp (printTwoOp m) = some m := by
  cases m <;> decide

/-- A command of two words reads back from its text. -/
theorem parseCommand_printCommand_two (m : TwoOp) (a b : Word) :
    parseCommand (printCommand (.two m (.hex a) (.hex b))) = some (.two m (.hex a) (.hex b)) := by
  rw [parseCommand, tokens_printCommand_two]
  simp [commandOfTokens, parseTwoOp_printTwoOp, parseOperand_printOperand_hex, AsmCommand.wellFormed, AsmOperand.wordForm]

/-- A conversion of a word reads back from its text. -/
theorem parseCommand_printCommand_i2f (a : Word) :
    parseCommand (printCommand (.i2f (.hex a))) = some (.i2f (.hex a)) := by
  have hm : capitals ['I', '2', 'F'] = ['I', '2', 'F'] := by decide
  rw [parseCommand, tokens_printCommand_i2f]
  simp [commandOfTokens, hm, parseOperand_printOperand_hex, AsmCommand.wellFormed, AsmOperand.integerForm]

/-- An instruction's words need no host value to assemble. -/
theorem assemble_asmOfInstr (i : Instr) (h : HostState) : assemble (asmOfInstr i) h = .ok i := by
  cases i <;> rfl

end Sys2Proof.Machine

namespace Sys2Proof

open Sys2Proof.Machine

/-- Settles O6: the digits' places in the text, and the three fields read back from them. -/
theorem printedFormDeterminesCommand : Obligations.PrintedFormDeterminesCommand := by
  refine ⟨fun c => ?_, fun c d h => printEncoded_injective h⟩
  obtain ⟨hop, hsep, hsep', hdigits⟩ := printEncoded_getElem? c
  have hlt : c.op.toNat % 16 = c.op.toNat := Nat.mod_eq_of_lt (c.op.isLt.trans (by decide))
  refine ⟨printEncoded_length c, hsep, hsep', ?_, fun k hk => ?_⟩
  · rw [hop, hexDigits_getElem? (by decide), pow_zero, Nat.div_one, hlt]
  · obtain ⟨ha, hb⟩ := hdigits k hk
    exact ⟨ha.trans (hexDigits_getElem? hk _), hb.trans (hexDigits_getElem? hk _)⟩

/-- Settles O7: the printed words and mnemonics are plain characters, so the tokens are the ones printed, and each reads
back. -/
theorem assemblyTextReadsBack : Obligations.AssemblyTextReadsBack := by
  intro i h
  refine ⟨?_, assemble_asmOfInstr i h⟩
  cases i with
  | add a b => exact parseCommand_printCommand_two .add a b
  | sub a b => exact parseCommand_printCommand_two .sub a b
  | mul a b => exact parseCommand_printCommand_two .mul a b
  | div a b => exact parseCommand_printCommand_two .div a b
  | i2f a => exact parseCommand_printCommand_i2f a

/-- Settles O5: the decoder drops I2F's `B`, the encoder writes 0 there, and the text is the mnemonic and `A`'s digits. -/
theorem i2fIgnoresSecondField : Obligations.I2fIgnoresSecondField := by
  refine ⟨fun a b b' => ?_, fun a => ⟨rfl, ?_, rfl, fun k hk => ?_⟩, fun a => encode_b (.i2f a), decode_ofFields_i2f⟩
  · rw [commandResult, commandResult, decode_ofFields_i2f, decode_ofFields_i2f]
  · simp [asmOfInstr, printCommand, printOperand]
  · have htext : printCommand (asmOfInstr (.i2f a)) = ['I', '2', 'F', ' ', '0', 'x'] ++ hexDigits 8 a.toNat := rfl
    have hskip : 6 + k - ['I', '2', 'F', ' ', '0', 'x'].length = k := Nat.add_sub_cancel_left 6 k
    rw [htext, List.getElem?_append_right (Nat.le_add_right 6 k), hskip]
    exact hexDigits_getElem? hk _

end Sys2Proof
end

section
/-! Steps and runs: what a run delivers, what it keeps, and what stops it (70_reset_and_hazards.md; 60_exceptions.md, section 1;
10_state.md). -/

namespace Sys2Proof.Machine

/-! ### The result of a command word (30_encoding.md R62, R64) -/

theorem commandResult_of_decode {c : CommandWord} {i : Instr} (h : decode c = .ok i) :
    commandResult c = some (instrResult i) := by
  rw [commandResult, h]

@[simp] theorem commandResult_encode (i : Instr) : commandResult (encode i) = some (instrResult i) :=
  commandResult_of_decode (decode_encode i)

/-- A command word with a result is one the decoder reads. -/
theorem decode_of_commandResult {c : CommandWord} {w : Word} (h : commandResult c = some w) :
    ∃ i, decode c = .ok i ∧ instrResult i = w := by
  unfold commandResult at h
  split at h
  next i hd => exact ⟨i, hd, by simpa using h⟩
  next => cases h

/-- The word an admitted command delivers; for a reserved one, which delivers nothing, the word 0. -/
def deliveredWord (c : CommandWord) : Word := (commandResult c).getD 0#32

theorem commandResult_of_admitted {c : CommandWord} (h : c.admitted = true) : commandResult c = some (deliveredWord c) := by
  obtain ⟨i, hd⟩ := decode_of_admitted h
  rw [deliveredWord, commandResult_of_decode hd, Option.getD_some]

/-! ### One step -/

section
variable {s rest : State} {c : CommandWord}

theorem step_eq_exec {i : Instr} (hfetch : s.fetch = .command c rest) (hd : decode c = .ok i) : step s = exec i rest := by
  simp [step, hfetch, hd]

/-- A fetched command with a result delivers it. -/
theorem step_of_result {w : Word} (hfetch : s.fetch = .command c rest) (hw : commandResult c = some w) :
    step s = .next (rest.writeY w) := by
  obtain ⟨i, hd, rfl⟩ := decode_of_commandResult hw
  exact step_of_decoded hfetch hd

/-- With nothing in flight, the command on the inputs is fetched off them. -/
theorem fetch_of_issued (hflight : s.inFlight = []) (hport : s.port = .issued c) :
    s.fetch = .command c { s with port := .idle } := by
  rw [fetch_of_empty hflight, hport]

theorem fetch_of_idle (hflight : s.inFlight = []) (hport : s.port = .idle) : s.fetch = .nothing := by
  rw [fetch_of_empty hflight, hport]

end

/-! ### Admitted states (30_encoding.md R64; 70_reset_and_hazards.md R230, R235) -/

theorem State.admitted_iff (s : State) :
    s.admitted = true ↔ s.inFlight.all CommandWord.admitted = true ∧ s.port.admitted = true := by
  rw [State.admitted, Bool.and_eq_true]

/-- What an admitted state fetches is an admitted command, and the state left is admitted. -/
theorem admitted_of_fetch {s rest : State} {c : CommandWord} (hs : s.admitted = true) (hfetch : s.fetch = .command c rest) :
    c.admitted = true ∧ rest.admitted = true := by
  obtain ⟨hflight, hport⟩ := s.admitted_iff.mp hs
  rcases fetch_cases s with ⟨c', cs, hcons, hf⟩ | ⟨-, -, hf⟩ | ⟨c', hnil, hissued, hf⟩ | ⟨-, -, hf⟩ | ⟨-, -, hf⟩ <;>
    rw [hf] at hfetch <;> cases hfetch
  · rw [hcons, List.all_cons, Bool.and_eq_true] at hflight
    obtain ⟨hc, hcs⟩ := hflight
    exact ⟨hc, (State.admitted_iff _).mpr ⟨hcs, hport⟩⟩
  · rw [hissued] at hport
    exact ⟨hport, (State.admitted_iff _).mpr ⟨hflight, rfl⟩⟩

/-- Nothing stands on the inputs of an admitted state that would stop the core. -/
theorem fetch_ne_stopped_of_admitted {s : State} (hs : s.admitted = true) (r : Refusal) : s.fetch ≠ .stopped r := by
  obtain ⟨-, hport⟩ := s.admitted_iff.mp hs
  rcases fetch_cases s with ⟨c, cs, -, hf⟩ | ⟨-, -, hf⟩ | ⟨c, -, -, hf⟩ | ⟨-, hp, -⟩ | ⟨-, hp, -⟩
  · simp [hf]
  · simp [hf]
  · simp [hf]
  · rw [hp] at hport; cases hport
  · rw [hp] at hport; cases hport

@[simp] theorem writeY_admitted (s : State) (w : Word) : (s.writeY w).admitted = s.admitted := rfl

/-- An admitted state steps. -/
theorem step_next_of_admitted {s : State} (hs : s.admitted = true) : ∃ t, step s = .next t := by
  cases hfetch : s.fetch with
  | nothing => exact ⟨s, step_of_nothing hfetch⟩
  | stopped r => exact absurd hfetch (fetch_ne_stopped_of_admitted hs r)
  | command c rest =>
    obtain ⟨hc, -⟩ := admitted_of_fetch hs hfetch
    exact ⟨_, step_of_result hfetch (commandResult_of_admitted hc)⟩

/-- A step keeps the invariant. -/
theorem step_keeps_admitted {s t : State} (hs : s.admitted = true) (hstep : step s = .next t) : t.admitted = true := by
  rcases step_next_cases hstep with ⟨-, rfl⟩ | ⟨c, rest, i, hfetch, -, rfl⟩
  · exact hs
  · obtain ⟨-, hrest⟩ := admitted_of_fetch hs hfetch
    exact hrest

/-- A step never takes `Y` away. -/
theorem step_keeps_y_isSome {s t : State} (hstep : step s = .next t) (hy : s.y.isSome = true) : t.y.isSome = true := by
  rcases step_next_cases hstep with ⟨-, rfl⟩ | ⟨c, rest, i, -, -, rfl⟩
  · exact hy
  · rfl

theorem drive_keeps_admitted {s : State} {c : CommandWord} (hs : s.admitted = true) (hport : s.port = .idle)
    (hc : c.admitted = true) : (s.drive c).admitted = true := by
  obtain ⟨hflight, -⟩ := s.admitted_iff.mp hs
  rw [drive_of_idle hport]
  exact (State.admitted_iff _).mpr ⟨hflight, hc⟩

/-- Acceptance moves the command on the inputs, which was admitted there, to the commands in flight. -/
theorem accept_keeps_admitted {s : State} (hs : s.admitted = true) : s.accept.admitted = true := by
  obtain ⟨hflight, hport⟩ := s.admitted_iff.mp hs
  cases hp : s.port with
  | idle => rwa [State.accept, hp]
  | inputsChanged => rwa [State.accept, hp]
  | abandoned => rwa [State.accept, hp]
  | issued c =>
    rw [hp] at hport
    rw [accept_of_issued hp, State.admitted_iff]
    refine ⟨?_, rfl⟩
    rw [List.all_append, hflight, List.all_cons, List.all_nil, Bool.and_true, Bool.true_and]
    exact hport

/-! ### Runs -/

/-- A step that goes on is the first of a longer run. -/
theorem runSteps_succ_of_next {s t : State} (h : step s = .next t) (k : Nat) : runSteps (k + 1) s = runSteps k t := by
  rw [runSteps_succ, h]

/-- Nothing happens in a run with nothing to do. -/
theorem runSteps_of_nothing {s : State} (h : s.fetch = .nothing) (k : Nat) : runSteps k s = .next s := by
  induction k with
  | zero => exact runSteps_zero s
  | succ k ih => rw [runSteps_succ_of_next (step_of_nothing h), ih]

theorem runsOn_of_admitted {s : State} (hs : s.admitted = true) : s.runsOn := by
  intro k
  induction k generalizing s with
  | zero => exact ⟨s, runSteps_zero s⟩
  | succ k ih =>
    obtain ⟨t, hstep⟩ := step_next_of_admitted hs
    rw [runSteps_succ_of_next hstep]
    exact ih (step_keeps_admitted hs hstep)

/-- The step that takes the oldest command in flight. -/
theorem step_of_inFlight_cons {s : State} {c : CommandWord} {cs : List CommandWord} (hflight : s.inFlight = c :: cs)
    (hc : c.admitted = true) : step s = .next { s with inFlight := cs, y := commandResult c } := by
  rw [step_of_result (fetch_of_inFlight hflight) (commandResult_of_admitted hc), commandResult_of_admitted hc]
  rfl

/-- The `k`-th command in flight delivers its result in step `k + 1`, by induction on the place in the list. -/
theorem runSteps_delivers {s : State} {k : Nat} {c : CommandWord} (hall : s.inFlight.all CommandWord.admitted = true)
    (hk : s.inFlight[k]? = some c) :
    runSteps (k + 1) s = .next { s with inFlight := s.inFlight.drop (k + 1), y := commandResult c } := by
  induction k generalizing s with
  | zero =>
    cases hflight : s.inFlight with
    | nil => simp [hflight] at hk
    | cons d ds =>
      obtain ⟨hd, -⟩ : d.admitted = true ∧ ds.all CommandWord.admitted = true := by simpa [hflight] using hall
      obtain rfl : d = c := by simpa [hflight] using hk
      rw [runSteps_succ_of_next (step_of_inFlight_cons hflight hd)]
      rfl
  | succ k ih =>
    cases hflight : s.inFlight with
    | nil => simp [hflight] at hk
    | cons d ds =>
      obtain ⟨hd, hds⟩ : d.admitted = true ∧ ds.all CommandWord.admitted = true := by simpa [hflight] using hall
      rw [hflight, List.getElem?_cons_succ] at hk
      rw [runSteps_succ_of_next (step_of_inFlight_cons hflight hd), ih hds hk]
      rfl

/-- A run of one step per command in flight and one more delivers the result of the command on the inputs. -/
theorem runSteps_issued {s : State} {c : CommandWord} {w : Word} (hall : s.inFlight.all CommandWord.admitted = true)
    (hport : s.port = .issued c) (hw : commandResult c = some w) :
    runSteps (s.inFlight.length + 1) s = .next { port := .idle, inFlight := [], y := some w } := by
  induction hflight : s.inFlight generalizing s with
  | nil =>
    rw [List.length_nil, runSteps_succ_of_next (step_of_result (fetch_of_issued hflight hport) hw), runSteps_zero,
      State.writeY, hflight]
  | cons d ds ih =>
    obtain ⟨hd, hds⟩ : d.admitted = true ∧ ds.all CommandWord.admitted = true := by simpa [hflight] using hall
    rw [List.length_cons, runSteps_succ_of_next (step_of_inFlight_cons hflight hd)]
    exact ih hds hport rfl

/-- The same run with free inputs leaves nothing in flight. -/
theorem runSteps_drains {s : State} (hs : s.admitted = true) :
    ∃ t, runSteps (s.inFlight.length + 1) s = .next t ∧ t.inFlight = [] ∧ t.port = .idle := by
  obtain ⟨hall, hadmitted⟩ := s.admitted_iff.mp hs
  cases hport : s.port with
  | inputsChanged => rw [hport] at hadmitted; cases hadmitted
  | abandoned => rw [hport] at hadmitted; cases hadmitted
  | issued c =>
    rw [hport] at hadmitted
    exact ⟨_, runSteps_issued hall hport (commandResult_of_admitted hadmitted), rfl, rfl⟩
  | idle =>
    induction hflight : s.inFlight generalizing s with
    | nil => exact ⟨s, runSteps_of_nothing (fetch_of_idle hflight hport) _, hflight, hport⟩
    | cons d ds ih =>
      obtain ⟨hd, hds⟩ : d.admitted = true ∧ ds.all CommandWord.admitted = true := by simpa [hflight] using hall
      have hstep := step_of_inFlight_cons hflight hd
      rw [List.length_cons, runSteps_succ_of_next hstep]
      exact ih (step_keeps_admitted hs hstep) hds hadmitted hport rfl

/-! ### Issuing commands (70_reset_and_hazards.md, section 2) -/

/-- A command that stands on the inputs once driven delivers its own result, after those in flight. -/
theorem issue_of_drive {s : State} {c : CommandWord} {w : Word} (hall : s.inFlight.all CommandWord.admitted = true)
    (hport : (s.drive c).port = .issued c) (hw : commandResult c = some w) :
    issue c s = .next { port := .idle, inFlight := [], y := some w } :=
  runSteps_issued (by rwa [drive_inFlight]) hport hw

theorem issue_of_idle {s : State} {c : CommandWord} {w : Word} (hs : s.admitted = true) (hport : s.port = .idle)
    (hw : commandResult c = some w) : issue c s = .next { port := .idle, inFlight := [], y := some w } := by
  obtain ⟨hall, -⟩ := s.admitted_iff.mp hs
  exact issue_of_drive hall (by rw [drive_of_idle hport]) hw

/-- A list of admitted commands delivers each its own word, whatever came before. -/
theorem issueAll_eq {cs : List CommandWord} {s : State} (hcs : cs.all CommandWord.admitted = true) (hs : s.admitted = true)
    (hport : s.port = .idle) : ∃ t, issueAll cs s = .next (cs.map deliveredWord, t) := by
  induction cs generalizing s with
  | nil => exact ⟨s, rfl⟩
  | cons c cs ih =>
    obtain ⟨hc, hcs⟩ : c.admitted = true ∧ cs.all CommandWord.admitted = true := by simpa using hcs
    have hissue := issue_of_idle hs hport (commandResult_of_admitted hc)
    obtain ⟨t, hrest⟩ := ih (s := { port := .idle, inFlight := [], y := some (deliveredWord c) }) hcs rfl rfl
    refine ⟨t, ?_⟩
    simp only [issueAll, hissue, State.readY, hrest, List.map_cons]

/-- A reset leaves inputs that take whatever command the host issues next. -/
theorem drive_resetPulse_port (s : State) (c : CommandWord) : (s.resetPulse.drive c).port = .issued c := by
  unfold State.drive
  rw [resetPulse_port]
  cases s.busy <;> rfl

/-! ### Changed inputs (70_reset_and_hazards.md R235) -/

theorem drive_other_port {s : State} {c d : CommandWord} (hport : s.port = .issued c) (hne : d ≠ c) :
    (s.drive d).port = .inputsChanged := by
  simp [State.drive, hport, hne]

/-- Changed inputs stay changed, whatever is driven. -/
theorem drive_of_inputsChanged {s : State} (hport : s.port = .inputsChanged) (c : CommandWord) : s.drive c = s := by
  simp [State.drive, hport]

theorem step_of_inputsChanged {s : State} (hflight : s.inFlight = []) (hport : s.port = .inputsChanged) :
    step s = .refused .inputsChanged :=
  step_of_stopped (by rw [fetch_of_empty hflight, hport])

theorem step_of_abandoned {s : State} (hflight : s.inFlight = []) (hport : s.port = .abandoned) :
    step s = .refused .abandonedByReset :=
  step_of_stopped (by rw [fetch_of_empty hflight, hport])

end Sys2Proof.Machine

namespace Sys2Proof

open Sys2Proof.Machine

/-- Settles O53: each event keeps the invariant, and an admitted state steps. -/
theorem admittedIsKeptByEveryStep : Obligations.AdmittedIsKeptByEveryStep := by
  refine ⟨fun s hs => ?_, fun s t hs hstep => ?_, fun s c => drive_keeps_admitted, fun s => accept_keeps_admitted⟩
  · obtain ⟨t, hstep⟩ := step_next_of_admitted hs
    exact ⟨t, hstep, step_keeps_admitted hs hstep⟩
  · exact ⟨step_keeps_admitted hs hstep, step_keeps_y_isSome hstep⟩

/-- Settles O49: the state after the first issue is itself admitted with free inputs, so the second gives it again. -/
theorem issueDeliversTheCommandsOwnResult : Obligations.IssueDeliversTheCommandsOwnResult := fun _ _ _ hs hport hw =>
  ⟨issue_of_idle hs hport hw, issue_of_idle rfl rfl hw⟩

/-- Settles O50, from the place of each command in the list. -/
theorem resultsComeInIssueOrder : Obligations.ResultsComeInIssueOrder :=
  ⟨fun _ _ _ => runSteps_delivers, fun _ _ => accept_of_issued⟩

/-- Settles O51: both runs deliver each command's own word, a function of the command alone. -/
theorem orderAndHistoryDoNotChangeResults : Obligations.OrderAndHistoryDoNotChangeResults := by
  intro cs cs' s s' hperm hcs hs hport hs' hport'
  have hcs' : cs'.all CommandWord.admitted = true := by rwa [← hperm.all_eq]
  obtain ⟨t, ht⟩ := issueAll_eq hcs hs hport
  obtain ⟨t', ht'⟩ := issueAll_eq hcs' hs' hport'
  have hzip (l : List CommandWord) : l.zip (l.map deliveredWord) = l.map fun c => (c, deliveredWord c) :=
    List.map_prod_left_eq_zip.symm
  refine ⟨_, _, t, t', ht, ht', List.length_map .., List.length_map .., ?_, fun c w w' hw hw' => ?_⟩
  · rw [hzip, hzip]
    exact hperm.map _
  · rw [hzip, List.mem_map] at hw hw'
    obtain ⟨d, -, hd⟩ := hw
    obtain ⟨d', -, hd'⟩ := hw'
    cases hd
    cases hd'
    rfl

/-- Settles O54, from the invariant and the run that drains. -/
theorem admittedStatesRunOn : Obligations.AdmittedStatesRunOn := fun _ hs => ⟨runsOn_of_admitted hs, runSteps_drains hs⟩

/-- Settles O55: a reset leaves the port idle or abandoned, with nothing in flight; either takes a new command. -/
theorem resetAbandonsTheCommandInFlight : Obligations.ResetAbandonsTheCommandInFlight := by
  intro s c w
  refine ⟨rfl, fun hbusy => ?_, fun hbusy => ?_, fun hw => issue_of_drive rfl (drive_resetPulse_port s c) hw⟩
  · simp [State.resetPulse, State.reset, hbusy]
  · exact step_of_abandoned rfl (by rw [resetPulse_port, if_pos hbusy])

/-- Settles O56: changed inputs stay changed, and stop the core once nothing is in flight before them. -/
theorem changedInputsGiveNoResult : Obligations.ChangedInputsGiveNoResult := by
  intro s c d e hport
  refine ⟨drive_stable hport, fun hne => ?_⟩
  have hchanged := drive_other_port hport hne
  rw [drive_of_inputsChanged hchanged]
  refine ⟨hchanged, hchanged, fun hflight k => runSteps_succ_of_refused (step_of_inputsChanged ?_ hchanged) k⟩
  rw [drive_inFlight, hflight]

/-- Settles O44: every meaning writes its command's result to `Y` and touches nothing else. -/
theorem resultDependsOnTheCommandAlone : Obligations.ResultDependsOnTheCommandAlone := fun i s s' =>
  ⟨_, _, exec_eq i s, exec_eq i s', rfl, rfl, rfl, rfl, rfl, rfl⟩

/-- Settles O45: the fetched command is the oldest in flight, or the one on the inputs when there is none. -/
theorem stepRunsTheDecodedCommand : Obligations.StepRunsTheDecodedCommand :=
  ⟨fun _ _ _ _ hflight hd => step_eq_exec (fetch_of_inFlight hflight) hd,
    fun _ _ _ hflight hport hd => step_eq_exec (fetch_of_issued hflight hport) hd⟩

/-- Settles O48: with idle inputs and nothing in flight there is nothing to fetch. -/
theorem coreWaitsForACommand : Obligations.CoreWaitsForACommand :=
  ⟨rfl, runSteps_of_nothing rfl, fun _ k hport hflight => runSteps_of_nothing (fetch_of_idle hflight hport) k⟩

/-- Settles O52, by the reset values of the fields. -/
theorem resetStateIsAdmitted : Obligations.ResetStateIsAdmitted := ⟨rfl, reset_inFlight, reset_port, reset_y⟩

end Sys2Proof
end

section
/-! Host programs: the lines that issue a command and the lines that do not (30_encoding.md R72, R73). -/

namespace Sys2Proof.Machine

section
variable {l : AsmLine} {d : ValueName} {x : AsmOperand} {h : HostState}

/-- An admitted command line delivers its instruction's result and names it. -/
theorem runLine_command {c : AsmCommand} {i : Instr} (hl : lineAdmitted (.command d c) h = true)
    (hi : assemble c h = .ok i) (hs : h.core.admitted = true) (hport : h.core.port = .idle) :
    runLine (.command d c) h =
      .next (HostState.bind { h with core := ⟨.idle, [], some (instrResult i)⟩ } d (instrResult i)) := by
  simp [runLine, hl, runCommandLine, hi, issue_of_idle hs hport (commandResult_encode i), State.readY]

/-- A command whose operands do not assemble is never issued. -/
theorem runLine_command_of_error {c : AsmCommand} {f : Fault} (hl : lineAdmitted (.command d c) h = true)
    (hc : assemble c h = .error f) : runLine (.command d c) h = .fault f := by
  rw [runLine, if_pos hl]
  simp only [runCommandLine, hc]

theorem runLine_mov {w : Word} (hl : lineAdmitted (.mov d x) h = true) (hx : operandWord x h = .ok w) :
    runLine (.mov d x) h = .next (h.bind d w) := by
  simp [runLine, hl, nameWord, hx]

theorem runLine_fneg {w : Word} (hl : lineAdmitted (.fneg d x) h = true) (hx : operandWord x h = .ok w) :
    runLine (.fneg d x) h = .next (h.bind d (neg w)) := by
  simp [runLine, hl, nameWord, hx]

theorem runLine_tofloat {w : Word} (hl : lineAdmitted (.tofloat x) h = true) (hx : operandWord x h = .ok w) :
    runLine (.tofloat x) h = .next h := by
  simp [runLine, hl, hx]

end

section
variable {v : ValueName} {h : HostState} (hv : h.written v = false)
include hv

theorem operandWord_of_unwritten : operandWord (.name v) h = .error .unwrittenName := readName_of_unwritten hv

/-- Whatever the other operand is: read first, it can only answer a word or the same fault. -/
theorem assemble_two_of_unwritten (m : TwoOp) (x : AsmOperand) :
    assemble (.two m (.name v) x) h = .error .unwrittenName ∧ assemble (.two m x (.name v)) h = .error .unwrittenName := by
  have hname := operandWord_of_unwritten hv
  rcases operandWord_cases x h with ⟨w, hx⟩ | hx <;> simp [assemble, hname, hx]

theorem assemble_i2f_of_unwritten : assemble (.i2f (.name v)) h = .error .unwrittenName := by
  simp [assemble, operandWord_of_unwritten hv]

end

end Sys2Proof.Machine

namespace Sys2Proof

open Sys2Proof.Machine

/-- Settles O57: the line's own name is bound to its own result; an unwritten name stops the line where it is read. -/
theorem hostLineNamesItsResult : Obligations.HostLineNamesItsResult := by
  refine ⟨fun d c h i hl hi hs hport => ⟨_, runLine_command hl hi hs hport, readName_bind_same _ _ _, ?_, rfl⟩, ?_⟩
  · intro v hv
    exact readName_bind_other _ _ hv
  · intro d v m x h l hmem hl hv
    have hname := operandWord_of_unwritten hv
    obtain ⟨hleft, hright⟩ := assemble_two_of_unwritten hv m x
    simp only [List.mem_cons, List.not_mem_nil, or_false] at hmem
    rcases hmem with rfl | rfl | rfl | rfl | rfl | rfl
    · exact runLine_command_of_error hl hleft
    · exact runLine_command_of_error hl hright
    · exact runLine_command_of_error hl (assemble_i2f_of_unwritten hv)
    · simp [runLine, hl, nameWord, hname]
    · simp [runLine, hl, nameWord, hname]
    · simp [runLine, hl, hname]

/-- Settles O58, from the three lines' equations. -/
theorem pseudoOperationsIssueNoCommand : Obligations.PseudoOperationsIssueNoCommand := fun _ _ _ _ hx =>
  ⟨fun hl => runLine_mov hl hx, fun hl => runLine_fneg hl hx, fun hl => runLine_tofloat hl hx⟩

end Sys2Proof
end

section
/-! The normalizer and its closed form: rounding to 24 significant bits, ties to even (41_normalize.md, section 1), and the
conversion of an integer (section 2). -/

namespace Sys2Proof.Machine

/-! ### Bit lengths -/

theorem bitLength_pos (x : Nat) : 1 ≤ bitLength x := Nat.le_add_left 1 _

theorem lt_two_pow_bitLength (x : Nat) : x < 2 ^ bitLength x := Nat.lt_log2_self

theorem two_pow_le_of_bitLength {x : Nat} (hx : x ≠ 0) {n : Nat} (hn : n < bitLength x) : 2 ^ n ≤ x :=
  (Nat.le_log2 hx).mp (Nat.le_of_lt_succ hn)

theorem bitLength_eq_succ {x n : Nat} (hlow : 2 ^ n ≤ x) (hhigh : x < 2 ^ (n + 1)) : bitLength x = n + 1 := by
  have hx : x ≠ 0 := ((Nat.two_pow_pos n).trans_le hlow).ne'
  rw [bitLength, (Nat.log2_eq_iff hx).mpr ⟨hlow, hhigh⟩]

theorem lt_bitLength {x n : Nat} (h : 2 ^ n ≤ x) : n < bitLength x := by
  have hx : x ≠ 0 := ((Nat.two_pow_pos n).trans_le h).ne'
  exact Nat.lt_succ_of_le ((Nat.le_log2 hx).mpr h)

/-- The bit length of 0 counts as 1. -/
theorem bitLength_le {x n : Nat} (h : x < 2 ^ n) (hn : 1 ≤ n) : bitLength x ≤ n := by
  rcases Nat.eq_zero_or_pos x with rfl | hpos
  · exact hn
  · exact (Nat.log2_lt hpos.ne').mpr h

/-! ### The rounding decision (41_normalize.md R105 to R107) -/

/-- The decision in one formula: at least half, and above half or the retained bit odd. -/
theorem roundsUp_eq (gr : BitVec 2) (st low : Bool) :
    roundsUp gr st low = (gr.getLsbD 1 && (gr.getLsbD 0 || st || low)) := by
  revert gr st low
  decide

/-- Division to the nearest even integer in the bits cut off: the highest is the half, the others decide above it, and the
quotient's own low bit decides at it. -/
theorem divPow2Even_succ (x j : Nat) :
    divPow2Even x (j + 1) =
      x / 2 ^ (j + 1) + (x.testBit j && (anyBitBelow x j || (x / 2 ^ (j + 1)).testBit 0)).toNat := by
  have hpos : 0 < 2 ^ j := Nat.two_pow_pos j
  have hcut : x % 2 ^ (j + 1) = x % 2 ^ j + 2 ^ j * (x / 2 ^ j % 2) := by rw [pow_succ, Nat.mod_mul]
  unfold divPow2Even
  rw [hcut, Nat.testBit_eq_decide_div_mod_eq, Nat.testBit_zero, pow_succ 2 j]
  rcases Nat.mod_two_eq_zero_or_one (x / 2 ^ j) with hbit | hbit <;> rw [hbit]
  · rw [if_pos (by omega)]
    rfl
  · rw [if_neg (by omega)]
    cases hany : anyBitBelow x j with
    | true =>
      have hne : x % 2 ^ j ≠ 0 := by simpa [anyBitBelow] using hany
      rw [if_pos (by omega)]
      rfl
    | false =>
      have hzero : x % 2 ^ j = 0 := by simpa [anyBitBelow] using hany
      rw [if_neg (by omega)]
      rcases Nat.mod_two_eq_zero_or_one (x / (2 ^ j * 2)) with heven | hodd
      · simp [heven]
      · simp [hodd]

/-- With at least one bit gathered, the decision is that of division to the nearest even integer. -/
theorem GatheredBits.normRound_M {x k : Nat} {e : Int} {n : NormWork} (h : GatheredBits x e k n) (hk : 1 ≤ k) :
    (normRound n).M = divPow2Even x k := by
  obtain ⟨j, rfl⟩ : ∃ j, k = j + 1 := ⟨k - 1, by omega⟩
  have hrest : (n.gr.getLsbD 0 || n.st) = anyBitBelow x j := by
    rw [h.round, h.sticky]
    match j with
    | 0 => simp
    | j + 1 => simp [anyBitBelow_succ_high x j, Bool.or_comm]
  rw [Machine.normRound_M, roundsUp_eq, hrest, h.guard, h.magnitude, divPow2Even_succ]
  simp only [Nat.le_add_left, decide_true, Bool.true_and, Nat.add_sub_cancel]
  cases x.testBit j && (anyBitBelow x j || (x / 2 ^ (j + 1)).testBit 0) <;> rfl

@[simp] theorem normRound_E (n : NormWork) : (normRound n).E = n.E := by
  unfold normRound
  split <;> rfl

/-! ### The two normalizations together -/

/-- As many left shifts run as bring the leading one to bit 23 (41_normalize.md R104). -/
theorem normLeft_eq {n : NormWork} {k j : Nat} (hj : j ≤ k) (hlow : 2 ^ 23 ≤ n.M * 2 ^ j) (hhigh : n.M * 2 ^ j < 2 ^ 24) :
    normLeft k n = { n with M := n.M * 2 ^ j, E := n.E - j } := by
  induction j generalizing k n with
  | zero =>
    rw [pow_zero, Nat.mul_one] at hlow ⊢
    rw [normLeft_big hlow, Nat.cast_zero, Int.sub_zero]
  | succ j ih =>
    obtain ⟨k, rfl⟩ : ∃ k', k = k' + 1 := ⟨k - 1, by omega⟩
    have hshift : n.M * 2 ^ (j + 1) = 2 * n.M * 2 ^ j := by rw [pow_succ']; ring
    have hle : 2 * n.M ≤ 2 * n.M * 2 ^ j := Nat.le_mul_of_pos_right _ (Nat.two_pow_pos j)
    rw [hshift] at hlow hhigh ⊢
    rw [normLeft_small (by omega), ih (by omega) (by rwa [normShiftLeft_M]) (by rwa [normShiftLeft_M]), normShiftLeft_M,
      normShiftLeft_E, Int.sub_sub, Int.add_comm 1]
    rfl

/-- The rounded magnitude before its carry is put right, and its exponent, in closed form (41_normalize.md R110). -/
theorem normRound_normalized {m : Int} (hm : m ≠ 0) (e : Int) :
    (normRound (normLeft 23 (normRight m.natAbs.log2 (normStart m e)))).M = keptBits m.natAbs ∧
      (normRound (normLeft 23 (normRight m.natAbs.log2 (normStart m e)))).E = e + (bitLength m.natAbs : Int) - 24 := by
  have hx : m.natAbs ≠ 0 := Int.natAbs_ne_zero.mpr hm
  have hone := bitLength_pos m.natAbs
  have hlow : 2 ^ (bitLength m.natAbs - 1) ≤ m.natAbs := two_pow_le_of_bitLength hx (by omega)
  have hhigh := lt_two_pow_bitLength m.natAbs
  rw [normRound_E]
  by_cases hshort : bitLength m.natAbs ≤ 24
  · have hsmall : m.natAbs < 2 ^ 24 := hhigh.trans_le (Nat.pow_le_pow_right (by decide) hshort)
    have hshifted : 2 ^ 23 ≤ m.natAbs * 2 ^ (24 - bitLength m.natAbs) ∧
        m.natAbs * 2 ^ (24 - bitLength m.natAbs) < 2 ^ 24 := by
      constructor
      · calc 2 ^ 23 = 2 ^ (bitLength m.natAbs - 1) * 2 ^ (24 - bitLength m.natAbs) := by rw [← pow_add]; congr 1; omega
          _ ≤ _ := Nat.mul_le_mul_right _ hlow
      · calc _ < 2 ^ bitLength m.natAbs * 2 ^ (24 - bitLength m.natAbs) := Nat.mul_lt_mul_of_pos_right hhigh (Nat.two_pow_pos _)
          _ = 2 ^ 24 := by rw [← pow_add]; congr 1; omega
    obtain ⟨hge, hlt⟩ := hshifted
    have hwork : normLeft 23 (normRight m.natAbs.log2 (normStart m e)) =
        ⟨m.natAbs * 2 ^ (24 - bitLength m.natAbs), e - (24 - bitLength m.natAbs : Nat), 0b00#2, false⟩ := by
      rw [normRight_small (n := normStart m e) hsmall]
      exact normLeft_eq (by omega) hge hlt
    rw [hwork, normRound_M, keptBits, if_pos hshort, Nat.shiftLeft_eq, roundsUp_of_lt_two (gr := 0b00#2) (by decide)]
    exact ⟨rfl, by dsimp only; omega⟩
  · have hgathered := gatheredBits_normRight hm e
    have hbig : 2 ^ 23 ≤ (normRight m.natAbs.log2 (normStart m e)).M := by
      refine le_normRight_M ?_ _
      calc 2 ^ 24 ≤ 2 ^ (bitLength m.natAbs - 1) := Nat.pow_le_pow_right (by decide) (by omega)
        _ ≤ m.natAbs := hlow
    rw [normLeft_big hbig, hgathered.normRound_M (by omega), hgathered.exponent, keptBits, if_neg hshort]
    exact ⟨rfl, by omega⟩

/-! ### The closed form (41_normalize.md R110) -/

theorem keptBits_range {x : Nat} (hx : x ≠ 0) : 2 ^ 23 ≤ keptBits x ∧ keptBits x ≤ 2 ^ 24 := by
  have hm : (x : Int) ≠ 0 := by exact_mod_cast hx
  obtain ⟨hkept, -⟩ := normRound_normalized hm 0
  obtain ⟨hlow, hhigh⟩ := normalized_M_range hm 0
  obtain ⟨hge, hle⟩ := normRound_M_bounds (normLeft 23 (normRight (x : Int).natAbs.log2 (normStart x 0)))
  rw [Int.natAbs_natCast] at hkept
  rw [← hkept]
  simp only [Int.natAbs_natCast] at hlow hhigh hge hle
  omega

/-- Rounding carries out of 24 bits exactly when the kept bits reach 2^24. -/
theorem roundCarry_eq (x : Nat) : roundCarry x = if keptBits x = 2 ^ 24 then 1 else 0 := by
  unfold roundCarry rne24 keptBits
  have hlt := lt_two_pow_bitLength x
  by_cases hshort : bitLength x ≤ 24
  · have hkept : x <<< (24 - bitLength x) < 2 ^ 24 := by
      calc x <<< (24 - bitLength x) < 2 ^ bitLength x * 2 ^ (24 - bitLength x) := by
            rw [Nat.shiftLeft_eq]; exact Nat.mul_lt_mul_of_pos_right hlt (Nat.two_pow_pos _)
        _ = 2 ^ 24 := by rw [← pow_add]; congr 1; omega
    rw [if_pos hshort, if_pos hshort, if_neg hlt.ne, if_neg hkept.ne]
  · have hpow : 2 ^ bitLength x = 2 ^ 24 * 2 ^ (bitLength x - 24) := by rw [← pow_add]; congr 1; omega
    rw [if_neg hshort, if_neg hshort, hpow]
    simp only [Nat.mul_left_inj (Nat.two_pow_pos (bitLength x - 24)).ne']

theorem roundCarry_le_one (x : Nat) : roundCarry x ≤ 1 := by
  unfold roundCarry
  split <;> decide

/-- The rounded number is the kept bits in their place. -/
theorem rne24_eq (x : Nat) : (rne24 x : ℚ) = (keptBits x : ℚ) * (2 : ℚ) ^ ((bitLength x : Int) - 24) := by
  unfold rne24 keptBits
  by_cases hshort : bitLength x ≤ 24
  · rw [if_pos hshort, if_pos hshort, Nat.shiftLeft_eq]
    push_cast
    rw [mul_assoc, ← zpow_natCast (2 : ℚ), ← zpow_add₀ two_ne_zero, Nat.cast_sub hshort]
    push_cast
    rw [sub_add_sub_cancel, sub_self, zpow_zero, mul_one]
  · rw [if_neg hshort, if_neg hshort, Nat.cast_mul, Nat.cast_pow, ← zpow_natCast, Nat.cast_sub (by omega)]
    push_cast
    rfl

@[simp] theorem rne24_zero : rne24 0 = 0 := by decide

/-- The engine computes its closed form: the carry step changes 2^24 to 2^23, which have the same fraction. -/
theorem norm_eq_closedNorm {m : Int} (hm : m ≠ 0) (e : Int) : norm m e = some (closedNorm m e) := by
  obtain ⟨hM, hE⟩ := normRound_normalized hm e
  have hwork : (normWork m e).E = (closedNorm m e).exponent ∧
      BitVec.ofNat 23 (normWork m e).M = (closedNorm m e).fraction := by
    rw [normWork, closedNorm, roundCarry_eq]
    by_cases hcarry : keptBits m.natAbs = 2 ^ 24
    · obtain ⟨hM', hE'⟩ := normCarry_of_eq (hM.trans hcarry)
      rw [hM', hE', hE, hcarry, if_pos rfl]
      have hfraction : BitVec.ofNat 23 (2 ^ 23) = BitVec.ofNat 23 (2 ^ 24) := by decide
      exact ⟨rfl, hfraction⟩
    · have hne : (normRound (normLeft 23 (normRight m.natAbs.log2 (normStart m e)))).M ≠ 2 ^ 24 := by rwa [hM]
      rw [normCarry_of_ne hne, hM, hE, if_neg hcarry]
      exact ⟨(Int.add_zero _).symm, rfl⟩
  obtain ⟨hexponent, hfraction⟩ := hwork
  rw [norm_of_ne_zero hm, hexponent, hfraction]
  rfl

/-- What a result of the engine says: a nonzero input, and its closed form. -/
theorem eq_closedNorm_of_norm {m e : Int} {n : Normalized} (h : norm m e = some n) : m ≠ 0 ∧ n = closedNorm m e := by
  have hm : m ≠ 0 := by
    rintro rfl
    cases h
  rw [norm_eq_closedNorm hm] at h
  exact ⟨hm, (Option.some.inj h).symm⟩

/-- The significand and exponent the engine returns have the value of the rounded magnitude. -/
theorem closedNorm_value {m : Int} (hm : m ≠ 0) (e : Int) :
    (2 ^ 23 + ((closedNorm m e).fraction.toNat : ℚ)) * (2 : ℚ) ^ ((closedNorm m e).exponent - e) = (rne24 m.natAbs : ℚ) := by
  obtain ⟨hlow, hhigh⟩ := keptBits_range (Int.natAbs_ne_zero.mpr hm)
  rw [rne24_eq, closedNorm, roundCarry_eq, BitVec.toNat_ofNat]
  by_cases hcarry : keptBits m.natAbs = 2 ^ 24
  · have hexponent : e + (bitLength m.natAbs : Int) - 24 + ((1 : Nat) : Int) - e = ((bitLength m.natAbs : Int) - 24) + 1 := by
      push_cast; ring
    rw [if_pos hcarry, hcarry, hexponent, zpow_add_one₀ two_ne_zero, Nat.mod_eq_zero_of_dvd (pow_dvd_pow 2 (by decide))]
    push_cast
    ring
  · have hexponent : e + (bitLength m.natAbs : Int) - 24 + ((0 : Nat) : Int) - e = (bitLength m.natAbs : Int) - 24 := by
      push_cast; ring
    have hfraction : 2 ^ 23 + keptBits m.natAbs % 2 ^ 23 = keptBits m.natAbs := by omega
    have hfraction' : (2 ^ 23 + ((keptBits m.natAbs % 2 ^ 23 : Nat) : ℚ)) = (keptBits m.natAbs : ℚ) := by
      exact_mod_cast hfraction
    rw [if_neg hcarry, hexponent, hfraction']

/-- A magnitude of at most 24 bits is kept as it is. -/
theorem rne24_of_short {x : Nat} (h : bitLength x ≤ 24) : rne24 x = x ∧ roundCarry x = 0 := by
  have hrne : rne24 x = x := if_pos h
  refine ⟨hrne, ?_⟩
  rw [roundCarry, hrne, if_neg (lt_two_pow_bitLength x).ne]

/-- The exponent of a result of the engine, from the width of its input. -/
theorem norm_exponent_range {m : Int} {n : Normalized} {width : Nat} (hn : norm m 150 = some n) (hm : m.natAbs < 2 ^ width)
    (hwidth : 1 ≤ width) : 127 ≤ n.exponent ∧ n.exponent ≤ 127 + width := by
  obtain ⟨-, rfl⟩ := eq_closedNorm_of_norm hn
  have hpos := bitLength_pos m.natAbs
  have hle := bitLength_le hm hwidth
  have hcarry := roundCarry_le_one m.natAbs
  simp only [closedNorm]
  omega

/-! ### The value of a packed result (40_representation.md R85, R88) -/

/-- A sign bit as a factor. -/
def signFactor (s : BitVec 1) : ℚ := if s = 1#1 then -1 else 1

/-- The value of a word with a nonzero exponent field, in terms of its significand. -/
theorem wordValue_of_expField_ne {w : Word} (h : expField w ≠ 0) :
    wordValue w = signFactor (unpack w).sign * (sig w : ℚ) * (2 : ℚ) ^ (expField w - 150) := by
  rw [wordValue, if_neg (mt (isZero_iff_expField w).mp h), sig_of_expField_ne h, signFactor]
  push_cast
  rfl

theorem wordValue_of_expField_eq {w : Word} (h : expField w = 0) : wordValue w = 0 :=
  if_pos ((isZero_iff_expField w).mpr h)

/-- The value of a packed word whose exponent fits the field above 0. -/
theorem wordValue_pack (s : BitVec 1) {E : Int} (f : BitVec 23) (hlow : 1 ≤ E) (hhigh : E ≤ 255) :
    wordValue (pack s E f) = signFactor s * (2 ^ 23 + (f.toNat : ℚ)) * (2 : ℚ) ^ (E - 150) := by
  have hE : expField (pack s E f) = E := by rw [expField_pack]; omega
  have hne : expField (pack s E f) ≠ 0 := by omega
  rw [wordValue_of_expField_ne hne, sig_of_expField_ne hne, hE, unpack_pack]
  push_cast
  rfl

/-- A normalized magnitude packed with an exponent correction `δ` has the value of its rounding, scaled by `2^δ`. -/
theorem wordValue_pack_closedNorm {m : Int} (hm : m ≠ 0) (s : BitVec 1) (δ : Int)
    (hlow : 1 ≤ (closedNorm m 150).exponent + δ) (hhigh : (closedNorm m 150).exponent + δ ≤ 255) :
    wordValue (pack s ((closedNorm m 150).exponent + δ) (closedNorm m 150).fraction) =
      signFactor s * (rne24 m.natAbs : ℚ) * (2 : ℚ) ^ δ := by
  have hexponent : (closedNorm m 150).exponent + δ - 150 = ((closedNorm m 150).exponent - 150) + δ := by ring
  rw [wordValue_pack s _ hlow hhigh, ← closedNorm_value hm 150, hexponent, zpow_add₀ two_ne_zero]
  ring

/-- An integer rounded to 24 significant bits, with its sign. -/
def roundedInt (m : Int) : ℚ := (if m < 0 then -1 else 1) * (rne24 m.natAbs : ℚ)

@[simp] theorem roundedInt_zero : roundedInt 0 = 0 := by simp [roundedInt]

theorem roundedInt_natCast (x : Nat) : roundedInt (x : Int) = (rne24 x : ℚ) := by
  have hx : ¬ (x : Int) < 0 := by omega
  rw [roundedInt, if_neg hx, one_mul, Int.natAbs_natCast]

theorem roundedInt_neg (m : Int) : roundedInt (-m) = -roundedInt m := by
  rcases lt_trichotomy m 0 with h | rfl | h
  · rw [roundedInt, roundedInt, if_neg (by omega), if_pos h, Int.natAbs_neg]
    ring
  · simp
  · rw [roundedInt, roundedInt, if_pos (by omega), if_neg (by omega), Int.natAbs_neg]
    ring

theorem signFactor_closedNorm (m e : Int) :
    signFactor (closedNorm m e).sign * (rne24 m.natAbs : ℚ) = roundedInt m := by
  unfold signFactor closedNorm roundedInt
  by_cases h : m < 0 <;> simp [h]

/-! ### The conversion of an integer (41_normalize.md R112) -/

/-- The conversion of a nonzero integer: its parts in closed form. -/
theorem instrResult_i2f {a : Word} (h : sext32 a ≠ 0) :
    instrResult (.i2f a) = pack (closedNorm (sext32 a) 150).sign (closedNorm (sext32 a) 150).exponent
      (closedNorm (sext32 a) 150).fraction := by
  change resultWord (i2fEngine a) = _
  rcases i2fEngine_cases a with ⟨hzero, -⟩ | ⟨-, n, hn, hparts⟩
  · exact absurd hzero h
  · obtain ⟨-, rfl⟩ := eq_closedNorm_of_norm hn
    rw [hparts, resultWord_parts]

theorem instrResult_i2f_zero {a : Word} (h : sext32 a = 0) : instrResult (.i2f a) = 0x00000000#32 := by
  change resultWord (i2fEngine a) = _
  rcases i2fEngine_cases a with ⟨-, hword⟩ | ⟨hne, -⟩
  · rw [hword, resultWord_word, constructedZero]
  · exact absurd h hne

/-- An integer of 32 bits rounds to at most 2^31: only 2^31 itself has 32 bits, and it does not carry. -/
theorem bitLength_add_roundCarry_le {x : Nat} (h : x ≤ 2 ^ 31) : bitLength x + roundCarry x ≤ 32 := by
  rcases Nat.lt_or_eq_of_le h with hlt | rfl
  · have hle := bitLength_le hlt (by decide)
    have hcarry := roundCarry_le_one x
    omega
  · decide

end Sys2Proof.Machine

namespace Sys2Proof

open Sys2Proof.Machine

/-- Settles O17: the closed form, its value, and the short magnitudes it keeps. -/
theorem normalizerRoundsToNearestEven : Obligations.NormalizerRoundsToNearestEven := fun _ e hm =>
  ⟨norm_eq_closedNorm hm e, closedNorm_value hm e, rne24_of_short⟩

/-- Settles O18: the true exponent `126 + L + c` of an integer fits the field, so the packed word has the rounded value. -/
theorem i2fRoundsEveryInteger : Obligations.I2fRoundsEveryInteger := by
  intro a s
  refine ⟨_, exec_eq (.i2f a) s, ?_, instrResult_i2f_zero, fun hm => ?_⟩
  · change _ = roundedInt (sext32 a)
    by_cases hm : sext32 a = 0
    · rw [instrResult_i2f_zero hm, hm, roundedInt_zero, wordValue_of_expField_eq (by decide)]
    · have hle := bitLength_add_roundCarry_le (natAbs_sext32_le a)
      have hvalue := wordValue_pack_closedNorm hm (closedNorm (sext32 a) 150).sign 0
        (by simp only [closedNorm]; omega) (by simp only [closedNorm]; omega)
      rw [Int.add_zero, signFactor_closedNorm, zpow_zero, mul_one] at hvalue
      rw [instrResult_i2f hm, hvalue]
  · have hle := bitLength_add_roundCarry_le (natAbs_sext32_le a)
    have hpos := bitLength_pos (sext32 a).natAbs
    rw [instrResult_i2f hm, expField_pack]
    simp only [closedNorm]
    omega

end Sys2Proof
end

section
/-! Rounding of rational numbers to 24 significant bits, and integers that stand for one with a sticky bit: what the accuracy
statements of 42_addsub.md, 43_multiply.md and 44_divide.md share. -/

namespace Sys2Proof.Machine

/-! ### The nearest integer, ties to even -/

/-- `n` is the integer nearest to `x`, and the even one of two at the same distance. -/
def NearestEven (x : ℚ) (n : ℤ) : Prop := |x - n| < 1 / 2 ∨ (|x - n| = 1 / 2 ∧ n % 2 = 0)

theorem nearestEven_self (n : ℤ) : NearestEven n n := by
  left
  rw [sub_self, abs_zero]
  norm_num

theorem NearestEven.neg {x : ℚ} {n : ℤ} (h : NearestEven x n) : NearestEven (-x) (-n) := by
  have hdist : |(-x) - ((-n : ℤ) : ℚ)| = |x - n| := by
    rw [Int.cast_neg, ← abs_neg (x - n)]
    congr 1
    ring
  rcases h with hlt | ⟨heq, heven⟩
  · exact .inl (hdist.trans_lt hlt)
  · exact .inr ⟨hdist.trans heq, by omega⟩

theorem NearestEven.dist_le {x : ℚ} {n : ℤ} (h : NearestEven x n) : |x - n| ≤ 1 / 2 := by
  rcases h with hlt | ⟨heq, -⟩
  · exact hlt.le
  · exact heq.le

/-- Two nearest integers are at most one apart; one apart they would both be ties, and both even. -/
theorem NearestEven.le {x : ℚ} {m n : ℤ} (hm : NearestEven x m) (hn : NearestEven x n) : m ≤ n := by
  by_contra hlt
  have hstep : (n : ℚ) + 1 ≤ m := by exact_mod_cast not_le.mp hlt
  obtain ⟨hmlow, -⟩ := abs_le.mp hm.dist_le
  obtain ⟨-, hnhigh⟩ := abs_le.mp hn.dist_le
  have hone : (m : ℚ) = n + 1 := by linarith
  have hxm : |x - m| = 1 / 2 := by rw [abs_of_nonpos] <;> linarith
  have hxn : |x - n| = 1 / 2 := by rw [abs_of_nonneg] <;> linarith
  have hone' : m = n + 1 := by exact_mod_cast hone
  obtain hlt' | ⟨-, hmeven⟩ := hm
  · exact absurd hxm hlt'.ne
  obtain hlt' | ⟨-, hneven⟩ := hn
  · exact absurd hxn hlt'.ne
  omega

theorem NearestEven.unique {x : ℚ} {m n : ℤ} (hm : NearestEven x m) (hn : NearestEven x n) : m = n :=
  le_antisymm (hm.le hn) (hn.le hm)

theorem nearestEven_roundTiesEven (x : ℚ) : NearestEven x (roundTiesEven x) := by
  have hlow := Int.floor_le x
  have hhigh := Int.lt_floor_add_one x
  unfold roundTiesEven
  split_ifs with hbelow habove heven
  · left; rw [abs_of_nonneg] <;> linarith
  · left; push_cast; rw [abs_of_nonpos] <;> linarith
  · right; refine ⟨?_, heven⟩; rw [abs_of_nonneg] <;> linarith
  · right; refine ⟨?_, by omega⟩; push_cast; rw [abs_of_nonpos] <;> linarith

theorem NearestEven.eq_roundTiesEven {x : ℚ} {n : ℤ} (h : NearestEven x n) : roundTiesEven x = n :=
  (nearestEven_roundTiesEven x).unique h

/-! ### Rounding to 24 significant bits -/

theorem two_zpow_pos (k : ℤ) : (0 : ℚ) < (2 : ℚ) ^ k := zpow_pos two_pos k

/-- The binade of the number and the nearest multiple of its unit make a rounding. -/
theorem isRounded24_of_nearestEven {x : ℚ} {t n : ℤ} (hlow : (2 : ℚ) ^ (t + 23) ≤ |x|) (hhigh : |x| < (2 : ℚ) ^ (t + 24))
    (hn : NearestEven (x / (2 : ℚ) ^ t) n) : IsRounded24 x (n * (2 : ℚ) ^ t) :=
  .inr ⟨t, hlow, hhigh, by rw [hn.eq_roundTiesEven]⟩

theorem isRounded24_zero : IsRounded24 0 0 := .inl ⟨rfl, rfl⟩

theorem IsRounded24.neg {x r : ℚ} (h : IsRounded24 x r) : IsRounded24 (-x) (-r) := by
  rcases h with ⟨rfl, rfl⟩ | ⟨t, hlow, hhigh, rfl⟩
  · simpa using isRounded24_zero
  · have hn := (nearestEven_roundTiesEven (x / (2 : ℚ) ^ t)).neg
    rw [← neg_div] at hn
    rw [← abs_neg] at hlow hhigh
    rw [← neg_mul, ← Int.cast_neg]
    exact isRounded24_of_nearestEven hlow hhigh hn

/-- Rounding to significant bits commutes with scaling by a power of two. -/
theorem IsRounded24.mul_zpow {x r : ℚ} (h : IsRounded24 x r) (c : ℤ) : IsRounded24 (x * (2 : ℚ) ^ c) (r * (2 : ℚ) ^ c) := by
  have hc := two_zpow_pos c
  rcases h with ⟨rfl, rfl⟩ | ⟨t, hlow, hhigh, rfl⟩
  · simpa using isRounded24_zero
  · have habs : |x * (2 : ℚ) ^ c| = |x| * (2 : ℚ) ^ c := by rw [abs_mul, abs_of_pos hc]
    have hquot : x * (2 : ℚ) ^ c / (2 : ℚ) ^ (t + c) = x / (2 : ℚ) ^ t := by
      rw [zpow_add₀ two_ne_zero, mul_div_mul_right _ _ hc.ne']
    have hn := nearestEven_roundTiesEven (x / (2 : ℚ) ^ t)
    rw [← hquot] at hn
    rw [mul_assoc, ← zpow_add₀ two_ne_zero, ← hquot]
    refine isRounded24_of_nearestEven ?_ ?_ (nearestEven_roundTiesEven _)
    · rw [habs, add_right_comm, zpow_add₀ two_ne_zero]
      exact mul_le_mul_of_nonneg_right hlow hc.le
    · rw [habs, add_right_comm, zpow_add₀ two_ne_zero]
      exact mul_lt_mul_of_pos_right hhigh hc

theorem IsRounded24.signFactor_mul {x r : ℚ} (h : IsRounded24 x r) (s : BitVec 1) :
    IsRounded24 (signFactor s * x) (signFactor s * r) := by
  unfold signFactor
  split
  · rw [neg_one_mul, neg_one_mul]; exact h.neg
  · rwa [one_mul, one_mul]

/-- A number has one rounding: its binade is determined. -/
theorem IsRounded24.unique {x r r' : ℚ} (h : IsRounded24 x r) (h' : IsRounded24 x r') : r = r' := by
  have hne {t : ℤ} (hlow : (2 : ℚ) ^ (t + 23) ≤ |x|) : x ≠ 0 := abs_pos.mp ((two_zpow_pos _).trans_le hlow)
  have hle {t t' : ℤ} (hlow : (2 : ℚ) ^ (t + 23) ≤ |x|) (hhigh : |x| < (2 : ℚ) ^ (t' + 24)) : t ≤ t' := by
    have hexp := (zpow_lt_zpow_iff_right₀ one_lt_two).mp (hlow.trans_lt hhigh)
    omega
  rcases h with ⟨hx, rfl⟩ | ⟨t, hlow, hhigh, rfl⟩ <;> rcases h' with ⟨hx', rfl⟩ | ⟨t', hlow', hhigh', rfl⟩
  · rfl
  · exact absurd hx (hne hlow')
  · exact absurd hx' (hne hlow)
  · rw [le_antisymm (hle hlow hhigh') (hle hlow' hhigh)]

/-! ### Integers with a sticky bit -/

/-- `m` stands for the number `z`: it is `z`, or it is odd and `z` lies strictly between the even integers next to it. So the
low bit of `m` marks that bits of `z` were cut off (00_scope.md R9). -/
def StickyImage (z : ℚ) (m : ℤ) : Prop := z = m ∨ (m % 2 = 1 ∧ (m : ℚ) - 1 < z ∧ z < (m : ℚ) + 1)

theorem StickyImage.neg {z : ℚ} {m : ℤ} (h : StickyImage z m) : StickyImage (-z) (-m) := by
  rcases h with rfl | ⟨hodd, hlow, hhigh⟩
  · exact .inl (Int.cast_neg m).symm
  · refine .inr ⟨by omega, ?_, ?_⟩ <;> push_cast <;> linarith

theorem StickyImage.add_even {z : ℚ} {m : ℤ} (h : StickyImage z m) {n : ℤ} (hn : n % 2 = 0) :
    StickyImage (z + n) (m + n) := by
  rcases h with rfl | ⟨hodd, hlow, hhigh⟩
  · exact .inl (Int.cast_add m n).symm
  · refine .inr ⟨by omega, ?_, ?_⟩ <;> push_cast <;> linarith

/-- An odd integer does not stand for 0. -/
theorem StickyImage.eq_zero {m : ℤ} (h : StickyImage 0 m) : m = 0 := by
  rcases h with hzero | ⟨hodd, hlow, hhigh⟩
  · exact_mod_cast hzero.symm
  · have hlow' : m < 1 := by exact_mod_cast (by linarith : (m : ℚ) < 1)
    have hhigh' : -1 < m := by exact_mod_cast (by linarith : (-1 : ℚ) < m)
    omega

theorem nearestEven_div_of_lt {z K : ℚ} {n : ℤ} (hK : 0 < K) (hlow : -K < 2 * (z - n * K)) (hhigh : 2 * (z - n * K) < K) :
    NearestEven (z / K) n := by
  have hdiff : z / K - n = (z - n * K) / K := by rw [sub_div, mul_div_cancel_right₀ _ hK.ne']
  left
  rw [hdiff, abs_div, abs_of_pos hK, div_lt_iff₀ hK, abs_lt]
  constructor <;> linarith

theorem nearestEven_div_of_eq {z K : ℚ} {n : ℤ} (hK : 0 < K) (htie : |2 * (z - n * K)| = K) (heven : n % 2 = 0) :
    NearestEven (z / K) n := by
  have hdiff : z / K - n = (z - n * K) / K := by rw [sub_div, mul_div_cancel_right₀ _ hK.ne']
  have htie' : |z - n * K| = K / 2 := by rw [abs_mul, abs_of_pos (two_pos : (0 : ℚ) < 2)] at htie; linarith
  right
  refine ⟨?_, heven⟩
  rw [hdiff, abs_div, abs_of_pos hK, htie', div_right_comm, div_self hK.ne']

/-- A number as quotient and remainder by `2^k`, over the rationals. -/
theorem cast_eq_quotient_add_remainder (x k : Nat) :
    (x : ℚ) = ((x / 2 ^ k : Nat) : ℚ) * 2 ^ k + ((x % 2 ^ k : Nat) : ℚ) := by
  exact_mod_cast (Nat.div_add_mod' x (2 ^ k)).symm

/-- Dividing a number itself: below half, above half, or a tie. -/
theorem nearestEven_divPow2Even (x k : Nat) : NearestEven ((x : ℚ) / 2 ^ k) (divPow2Even x k : ℤ) := by
  have hK : (0 : ℚ) < 2 ^ k := by positivity
  have hx := cast_eq_quotient_add_remainder x k
  have hlt : ((x % 2 ^ k : Nat) : ℚ) < 2 ^ k := by exact_mod_cast Nat.mod_lt x (Nat.two_pow_pos k)
  unfold divPow2Even
  split_ifs with hbelow habove heven
  · have hbelow' : 2 * ((x % 2 ^ k : Nat) : ℚ) < 2 ^ k := by exact_mod_cast hbelow
    refine nearestEven_div_of_lt hK ?_ ?_ <;> rw [Int.cast_natCast] <;> linarith
  · have habove' : (2 : ℚ) ^ k < 2 * ((x % 2 ^ k : Nat) : ℚ) := by exact_mod_cast habove
    refine nearestEven_div_of_lt hK ?_ ?_ <;> rw [Int.cast_natCast, Nat.cast_add_one] <;> linarith
  · have htie : 2 * ((x % 2 ^ k : Nat) : ℚ) = 2 ^ k := by exact_mod_cast (by omega : 2 * (x % 2 ^ k) = 2 ^ k)
    refine nearestEven_div_of_eq hK ?_ (by omega)
    rw [Int.cast_natCast, abs_of_nonneg] <;> linarith
  · have htie : 2 * ((x % 2 ^ k : Nat) : ℚ) = 2 ^ k := by exact_mod_cast (by omega : 2 * (x % 2 ^ k) = 2 ^ k)
    refine nearestEven_div_of_eq hK ?_ (by omega)
    rw [Int.cast_natCast, Nat.cast_add_one, abs_of_nonpos] <;> linarith

/-- With two more bits below the half, a number and its sticky image are on the same side of it: an odd remainder is not the
half. -/
theorem StickyImage.nearestEven_divPow2Even {z : ℚ} {x k : Nat} (h : StickyImage z (x : ℤ)) (hk : z ≠ x → 2 ≤ k) :
    NearestEven (z / 2 ^ k) (divPow2Even x k : ℤ) := by
  by_cases hexact : z = x
  · rw [hexact]
    exact Machine.nearestEven_divPow2Even x k
  obtain hzx | ⟨hodd, hlow, hhigh⟩ := h
  · exact absurd (by exact_mod_cast hzx) hexact
  obtain ⟨j, rfl⟩ : ∃ j, k = j + 2 := ⟨k - 2, by have := hk hexact; omega⟩
  have hK : (0 : ℚ) < 2 ^ (j + 2) := by positivity
  have hx := cast_eq_quotient_add_remainder x (j + 2)
  have hfour : 2 ^ (j + 2) = 4 * 2 ^ j := by ring
  have hrem : x % 2 ^ (j + 2) % 2 = 1 := by
    rw [Nat.mod_mod_of_dvd _ (dvd_pow_self 2 (by omega))]
    omega
  have hlt := Nat.mod_lt x (Nat.two_pow_pos (j + 2))
  push_cast at hlow hhigh
  unfold divPow2Even
  split_ifs with hbelow habove heven
  · have hbelow' : 2 * ((x % 2 ^ (j + 2) : Nat) : ℚ) + 2 ≤ 2 ^ (j + 2) := by
      exact_mod_cast (by omega : 2 * (x % 2 ^ (j + 2)) + 2 ≤ 2 ^ (j + 2))
    refine nearestEven_div_of_lt hK ?_ ?_ <;> rw [Int.cast_natCast] <;> linarith
  · have habove' : (2 : ℚ) ^ (j + 2) + 2 ≤ 2 * ((x % 2 ^ (j + 2) : Nat) : ℚ) := by
      exact_mod_cast (by omega : 2 ^ (j + 2) + 2 ≤ 2 * (x % 2 ^ (j + 2)))
    have htop : ((x % 2 ^ (j + 2) : Nat) : ℚ) + 1 ≤ 2 ^ (j + 2) := by exact_mod_cast hlt
    refine nearestEven_div_of_lt hK ?_ ?_ <;> rw [Int.cast_natCast, Nat.cast_add_one] <;> linarith
  · omega
  · omega

/-- A number and its sticky image lie in the same binade. -/
theorem StickyImage.binade {z : ℚ} {x n : Nat} (h : StickyImage z (x : ℤ)) (hn : z ≠ x → 1 ≤ n) (hlow : 2 ^ n ≤ x)
    (hhigh : x < 2 ^ (n + 1)) : (2 : ℚ) ^ n ≤ z ∧ z < (2 : ℚ) ^ (n + 1) := by
  by_cases hexact : z = x
  · rw [hexact]
    exact ⟨by exact_mod_cast hlow, by exact_mod_cast hhigh⟩
  obtain hzx | ⟨hodd, hlow', hhigh'⟩ := h
  · exact absurd (by exact_mod_cast hzx) hexact
  obtain ⟨j, rfl⟩ : ∃ j, n = j + 1 := ⟨n - 1, by have := hn hexact; omega⟩
  have hgt : (2 : ℚ) ^ (j + 1) + 1 ≤ x := by exact_mod_cast (by omega : 2 ^ (j + 1) + 1 ≤ x)
  have hlt : (x : ℚ) + 1 ≤ 2 ^ (j + 1 + 1) := by exact_mod_cast hhigh
  push_cast at hlow' hhigh'
  constructor <;> linarith

/-- Rounding the sticky image of a number to 24 bits rounds the number, as long as the sticky lies below the round bit. -/
theorem StickyImage.isRounded24_rne24 {z : ℚ} {x : Nat} (h : StickyImage z (x : ℤ)) (hx : x ≠ 0)
    (hlen : z ≠ x → 2 ^ 25 ≤ x) : IsRounded24 z (rne24 x : ℚ) := by
  obtain ⟨n, hn⟩ : ∃ n, bitLength x = n + 1 := ⟨_, rfl⟩
  have hlow : 2 ^ n ≤ x := two_pow_le_of_bitLength hx (by omega)
  have hhigh : x < 2 ^ (n + 1) := hn ▸ lt_two_pow_bitLength x
  have hlong : z ≠ x → 25 < n + 1 := fun hne => hn ▸ lt_bitLength (hlen hne)
  obtain ⟨hzlow, hzhigh⟩ := h.binade (fun hne => by have := hlong hne; omega) hlow hhigh
  have habs : |z| = z := abs_of_pos (lt_of_lt_of_le (by positivity) hzlow)
  have hexp : ((n + 1 : Nat) : ℤ) - 24 + 23 = (n : ℤ) ∧ ((n + 1 : Nat) : ℤ) - 24 + 24 = ((n + 1 : Nat) : ℤ) := by
    push_cast; constructor <;> ring
  obtain ⟨hexplow, hexphigh⟩ := hexp
  have hcast : ((keptBits x : Nat) : ℚ) = ((keptBits x : ℤ) : ℚ) := (Int.cast_natCast _).symm
  rw [rne24_eq, hn, hcast]
  refine isRounded24_of_nearestEven ?_ ?_ ?_
  · rwa [hexplow, habs, zpow_natCast]
  · rwa [hexphigh, habs, zpow_natCast]
  · by_cases hshort : n + 1 ≤ 24
    · have hexact : z = x := by
        by_contra hne
        have := hlong hne
        omega
      have hkept : z / (2 : ℚ) ^ (((n + 1 : Nat) : ℤ) - 24) = ((keptBits x : ℤ) : ℚ) := by
        obtain ⟨hkeep, -⟩ := rne24_of_short (hn.trans_le hshort)
        rw [div_eq_iff (two_zpow_pos _).ne', ← hcast, ← hn, ← rne24_eq, hkeep, hexact]
      rw [hkept]
      exact nearestEven_self _
    · have hpow : (2 : ℚ) ^ (((n + 1 : Nat) : ℤ) - 24) = 2 ^ (n + 1 - 24) := by
        rw [← zpow_natCast, Nat.cast_sub (by omega)]
        rfl
      rw [hpow, keptBits, hn, if_neg hshort]
      exact h.nearestEven_divPow2Even fun hne => by have := hlong hne; omega

/-- The same for an integer of either sign. -/
theorem StickyImage.isRounded24_roundedInt {z : ℚ} {m : ℤ} (h : StickyImage z m) (hlen : z ≠ m → 2 ^ 25 ≤ m.natAbs) :
    IsRounded24 z (roundedInt m) := by
  rcases lt_trichotomy m 0 with hneg | rfl | hpos
  · obtain ⟨x, hx⟩ : ∃ x : Nat, m = -(x : ℤ) := ⟨m.natAbs, by omega⟩
    subst hx
    have hround : IsRounded24 (-z) (rne24 x : ℚ) := by
      refine StickyImage.isRounded24_rne24 (by simpa using h.neg) (by omega) fun hne => ?_
      have := hlen fun heq => hne (by rw [heq]; push_cast; ring)
      omega
    rw [roundedInt_neg, roundedInt_natCast]
    simpa using hround.neg
  · rcases h with hzero | ⟨hodd, -⟩
    · rw [hzero, roundedInt_zero, Int.cast_zero]
      exact isRounded24_zero
    · omega
  · obtain ⟨x, rfl⟩ : ∃ x : Nat, m = (x : ℤ) := ⟨m.natAbs, by omega⟩
    rw [roundedInt_natCast]
    refine h.isRounded24_rne24 (by omega) fun hne => ?_
    have := hlen fun heq => hne (by simpa using heq)
    omega

/-- Shifting right and ORing what left into bit 0 gives a sticky image of the exact quotient (00_scope.md R9). -/
theorem stickyImage_closedAlign (x d : Nat) : StickyImage ((x : ℚ) / 2 ^ d) (closedAlign .or x d : ℤ) := by
  have hpow : (0 : ℚ) < 2 ^ d := by positivity
  have hx := cast_eq_quotient_add_remainder x d
  rw [← align_eq_closedAlign, align_or_eq]
  cases hany : anyBitBelow x d with
  | false =>
    have hdvd : 2 ^ d ∣ x := (anyBitBelow_eq_false_iff x d).mp hany
    left
    rw [Bool.toNat_false, Nat.or_zero, Int.cast_natCast, Nat.cast_div_charZero hdvd]
    push_cast
    rfl
  | true =>
    have hne : x % 2 ^ d ≠ 0 := by simpa [anyBitBelow] using hany
    have hpos : (0 : ℚ) < ((x % 2 ^ d : Nat) : ℚ) := by exact_mod_cast Nat.pos_of_ne_zero hne
    have hlt : ((x % 2 ^ d : Nat) : ℚ) < 2 ^ d := by exact_mod_cast Nat.mod_lt x (Nat.two_pow_pos d)
    have hlow : ((x / 2 ^ d : Nat) : ℚ) < x / 2 ^ d := by rw [lt_div_iff₀ hpow]; linarith
    have hhigh : (x : ℚ) / 2 ^ d < ((x / 2 ^ d : Nat) : ℚ) + 1 := by rw [div_lt_iff₀ hpow]; linarith
    right
    rw [Bool.toNat_true, or_one_eq]
    generalize x / 2 ^ d = q at hlow hhigh ⊢
    have hbounds : q ≤ q - q % 2 + 1 ∧ q - q % 2 ≤ q := by omega
    obtain ⟨hge, hle⟩ := hbounds
    have hge' : (q : ℚ) ≤ ((q - q % 2 + 1 : Nat) : ℚ) := by exact_mod_cast hge
    have hle' : ((q - q % 2 + 1 : Nat) : ℚ) ≤ (q : ℚ) + 1 := by exact_mod_cast Nat.succ_le_succ hle
    refine ⟨by omega, ?_, ?_⟩ <;> rw [Int.cast_natCast] <;> linarith

end Sys2Proof.Machine
end

section
/-! Addition and subtraction: the closed form, the exact zero sum and the accuracy (42_addsub.md). -/

namespace Sys2Proof.Machine

/-! ### The sum without the alignment loop (42_addsub.md R133 to R137) -/

theorem extendedSig_eq (w : Word) : extendedSig w = 8 * sig w := by
  rw [extendedSig, Nat.shiftLeft_eq, Nat.mul_comm]
  rfl

/-- A distance of 0 leaves an even value as it is, under both folds. -/
theorem closedAlign_zero (fold : AlignStickyFold) {x : Nat} (hx : x % 2 = 0) : closedAlign fold x 0 = x := by
  rw [closedAlign, anyBitBelow_zero, Nat.shiftRight_zero]
  cases fold with
  | or => rw [foldSticky_or, Bool.toNat_false, Nat.or_zero]
  | replace => rw [foldSticky_replace, hx, Nat.sub_zero, Bool.toNat_false, Nat.add_zero]

/-- Neither fold reaches above bit 0. -/
theorem foldSticky_lt (fold : AlignStickyFold) {x n : Nat} (sticky : Bool) (hx : x < 2 ^ n) (hn : 1 ≤ n) :
    foldSticky fold x sticky < 2 ^ n := by
  have hor : x ||| 1 < 2 ^ n := Nat.or_lt_two_pow hx (Nat.one_lt_two_pow (by omega))
  have hone := or_one_eq x
  cases fold <;> cases sticky
  · simpa using hx
  · exact hor
  · rw [foldSticky_replace, Bool.toNat_false]; omega
  · rw [foldSticky_replace, Bool.toNat_true]; omega

theorem closedAlign_lt (fold : AlignStickyFold) {x d n : Nat} (hx : x < 2 ^ (n + d)) (hn : 1 ≤ n) :
    closedAlign fold x d < 2 ^ n := by
  refine foldSticky_lt fold _ ?_ hn
  rw [Nat.shiftRight_eq_div_pow, Nat.div_lt_iff_lt_mul (Nat.two_pow_pos d), ← pow_add]
  exact hx

/-- The magnitude of the operand `w` when the sum is formed with an operand of exponent field `e`. -/
def alignedMagnitude (fold : AlignStickyFold) (w : Word) (e : Int) : Nat :=
  closedAlign fold (8 * sig w) (e - expField w).toNat

/-- The operand of the larger exponent is not shifted. -/
theorem alignedMagnitude_of_le (fold : AlignStickyFold) {w : Word} {e : Int} (h : e ≤ expField w) :
    alignedMagnitude fold w e = 8 * sig w := by
  rw [alignedMagnitude, Int.toNat_of_nonpos (by omega), closedAlign_zero fold (by omega)]

theorem alignedMagnitude_lt (fold : AlignStickyFold) (w : Word) (e : Int) : alignedMagnitude fold w e < 2 ^ 27 := by
  have hsig := sig_lt w
  refine closedAlign_lt fold ?_ (by decide)
  calc 8 * sig w < 2 ^ 27 := by omega
    _ ≤ _ := Nat.pow_le_pow_right (by decide) (Nat.le_add_right _ _)

theorem alignedA_eq (fold : AlignStickyFold) (a b : Word) : alignedA fold a b = alignedMagnitude fold a (expField b) := by
  unfold alignedA
  split
  next h => rw [alignedMagnitude_of_le fold h, extendedSig_eq]
  next => rw [align_eq_closedAlign, extendedSig_eq, alignedMagnitude]

theorem alignedB_eq (fold : AlignStickyFold) (a b : Word) : alignedB fold a b = alignedMagnitude fold b (expField a) := by
  unfold alignedB
  split
  next => rw [align_eq_closedAlign, extendedSig_eq, alignedMagnitude]
  next h => rw [alignedMagnitude_of_le fold (by omega), extendedSig_eq]

theorem closedSum_eq (fold : AlignStickyFold) (a b : Word) :
    closedSum fold a b =
      applySign (unpack a).sign (alignedMagnitude fold a (expField b)) +
        applySign (unpack b).sign (alignedMagnitude fold b (expField a)) := rfl

theorem closedSum_comm (fold : AlignStickyFold) (a b : Word) : closedSum fold a b = closedSum fold b a := Int.add_comm _ _

theorem signedSum_eq_closedSum (fold : AlignStickyFold) (a b : Word) : signedSum fold a b = closedSum fold a b := by
  rw [signedSum, alignedA_eq, alignedB_eq, closedSum_eq]

theorem workingExponent_eq (a b : Word) : workingExponent a b = max (expField a) (expField b) := by
  unfold workingExponent
  split <;> omega

theorem closedSum_natAbs_lt (fold : AlignStickyFold) (a b : Word) : (closedSum fold a b).natAbs < 2 ^ 28 := by
  have ha := alignedMagnitude_lt fold a (expField b)
  have hb := alignedMagnitude_lt fold b (expField a)
  have hsum := Int.natAbs_add_le (applySign (unpack a).sign (alignedMagnitude fold a (expField b)))
    (applySign (unpack b).sign (alignedMagnitude fold b (expField a)))
  rw [natAbs_applySign, natAbs_applySign, ← closedSum_eq] at hsum
  omega

/-! ### The closed form of an addition (42_addsub.md R132, R138, R139) -/

/-- An addition that rounds: both fields nonzero, and the sum normalized with the correction `we - 153`. -/
theorem addEngine_of_sum_ne_zero {fold : AlignStickyFold} {a b : Word} (ha : expField a ≠ 0) (hb : expField b ≠ 0)
    (hsum : closedSum fold a b ≠ 0) :
    addEngine fold a b = .parts (closedNorm (closedSum fold a b) 150).sign
      ((closedNorm (closedSum fold a b) 150).exponent + (max (expField a) (expField b) - 153))
      (closedNorm (closedSum fold a b) 150).fraction := by
  rcases addEngine_cases fold a b with ⟨hz, -⟩ | ⟨-, hz, -⟩ | ⟨-, -, hz, -⟩ | ⟨-, -, -, n, hn, hparts⟩
  · exact absurd ((isZero_iff_expField b).mp hz) hb
  · exact absurd ((isZero_iff_expField a).mp hz) ha
  · exact absurd (signedSum_eq_closedSum fold a b ▸ hz) hsum
  · obtain ⟨-, rfl⟩ := eq_closedNorm_of_norm hn
    rw [hparts, workingExponent_eq, signedSum_eq_closedSum]
    congr 1
    ring

theorem addEngine_of_sum_eq_zero {fold : AlignStickyFold} {a b : Word} (ha : expField a ≠ 0) (hb : expField b ≠ 0)
    (hsum : closedSum fold a b = 0) : addEngine fold a b = .word 0x00000000#32 := by
  rcases addEngine_cases fold a b with ⟨hz, -⟩ | ⟨-, hz, -⟩ | ⟨-, -, -, hword⟩ | ⟨-, -, hne, -⟩
  · exact absurd ((isZero_iff_expField b).mp hz) hb
  · exact absurd ((isZero_iff_expField a).mp hz) ha
  · exact hword
  · exact absurd hsum (signedSum_eq_closedSum fold a b ▸ hne)

/-- Every addition is its closed form, branch by branch. -/
theorem execAddWith_eq_closedAdd (fold : AlignStickyFold) (a b : Word) (s : State) :
    execAddWith fold a b s = .next (s.writeY (closedAdd fold a b)) := by
  unfold closedAdd
  split_ifs with hb ha hsum
  · exact execAddWith_zero_right fold s hb
  · exact execAddWith_zero_left fold s hb ha
  · rw [execAddWith, addEngine_of_sum_eq_zero ha hb hsum, resultWord_word]
  · rw [execAddWith, addEngine_of_sum_ne_zero ha hb hsum, resultWord_parts]
    congr 3
    simp only [closedNorm]
    ring

/-! ### Subtraction (42_addsub.md R131) -/

/-- Negation flips the sign field and keeps the other two (40_representation.md R86). -/
theorem unpack_neg (w : Word) :
    unpack (neg w) = ⟨~~~(unpack w).sign, (unpack w).exponent, (unpack w).fraction⟩ := by
  have hkeep {k : Nat} (hk : k ≠ 31) : (neg w).getLsbD k = w.getLsbD k := by
    rw [getLsbD_neg, decide_eq_false hk, Bool.xor_false]
  have hflip : (neg w).getLsbD 31 = !w.getLsbD 31 := by
    rw [getLsbD_neg, decide_eq_true rfl, Bool.xor_true]
  rw [FloatValue.mk.injEq]
  refine ⟨?_, ?_, ?_⟩ <;> refine BitVec.eq_of_getLsbD_eq fun k hk => ?_
  · obtain rfl : k = 0 := by omega
    simp only [unpack, BitVec.getLsbD_not, BitVec.getLsbD_extractLsb', hflip, decide_true, Bool.true_and, hk]
  · simp only [unpack, BitVec.getLsbD_extractLsb', hkeep (show 23 + k ≠ 31 by omega)]
  · simp only [unpack, BitVec.getLsbD_extractLsb', hkeep (show 0 + k ≠ 31 by omega)]

@[simp] theorem sig_neg (w : Word) : sig (neg w) = sig w := by
  simp only [sig, unpack_neg]

@[simp] theorem signFactor_not (s : BitVec 1) : signFactor (~~~s) = -signFactor s := by
  have hs : s = 0#1 ∨ s = 1#1 := by bv_omega
  rcases hs with rfl | rfl <;> simp [signFactor]

theorem wordValue_neg (w : Word) : wordValue (neg w) = -wordValue w := by
  by_cases h : expField w = 0
  · rw [wordValue_of_expField_eq h, wordValue_of_expField_eq ((expField_neg w).trans h), neg_zero]
  · rw [wordValue_of_expField_ne h, wordValue_of_expField_ne ((expField_neg w).symm ▸ h), unpack_neg, sig_neg, expField_neg,
      signFactor_not]
    ring

/-! ### The exact zero sum (42_addsub.md R138) -/

/-- Two signed magnitudes that are not both 0 cancel exactly when they are equal with opposite signs. -/
theorem applySign_add_eq_zero_iff {s s' : BitVec 1} {x y : Nat} (h : 0 < x ∨ 0 < y) :
    applySign s x + applySign s' y = 0 ↔ x = y ∧ s ≠ s' := by
  have hs : s = 0#1 ∨ s = 1#1 := by bv_omega
  have hs' : s' = 0#1 ∨ s' = 1#1 := by bv_omega
  rcases hs with rfl | rfl <;> rcases hs' with rfl | rfl <;> simp [applySign] <;> omega

/-- An operand of smaller exponent is aligned below every significand with its implied one. -/
theorem alignedMagnitude_lt_of_lt (fold : AlignStickyFold) {a b : Word} (ha : expField a ≠ 0) (h : expField b < expField a) :
    alignedMagnitude fold b (expField a) < alignedMagnitude fold a (expField b) := by
  have hsig := sig_lt b
  have himplied := two_pow_le_sig ha
  rw [alignedMagnitude_of_le fold h.le]
  calc alignedMagnitude fold b (expField a) < 2 ^ 26 := by
        refine closedAlign_lt fold ?_ (by decide)
        calc 8 * sig b < 2 ^ 27 := by omega
          _ ≤ _ := Nat.pow_le_pow_right (by decide) (by omega)
    _ ≤ 8 * sig a := by omega

/-- The aligned magnitudes are equal only for equal exponent and fraction. -/
theorem alignedMagnitude_eq_iff (fold : AlignStickyFold) {a b : Word} (ha : expField a ≠ 0) (hb : expField b ≠ 0) :
    alignedMagnitude fold a (expField b) = alignedMagnitude fold b (expField a) ↔
      expField a = expField b ∧ (unpack a).fraction = (unpack b).fraction := by
  rcases lt_trichotomy (expField a) (expField b) with hlt | heq | hgt
  · exact iff_of_false (alignedMagnitude_lt_of_lt fold hb hlt).ne fun ⟨h, _⟩ => hlt.ne h
  · rw [alignedMagnitude_of_le fold heq.ge, alignedMagnitude_of_le fold heq.le, sig_of_expField_ne ha, sig_of_expField_ne hb,
      ← BitVec.toNat_inj]
    omega
  · exact iff_of_false (alignedMagnitude_lt_of_lt fold ha hgt).ne' fun ⟨h, _⟩ => hgt.ne' h

theorem closedSum_eq_zero_iff (fold : AlignStickyFold) {a b : Word} (ha : expField a ≠ 0) (hb : expField b ≠ 0) :
    closedSum fold a b = 0 ↔
      expField a = expField b ∧ (unpack a).fraction = (unpack b).fraction ∧ (unpack a).sign ≠ (unpack b).sign := by
  have hpos : 0 < alignedMagnitude fold a (expField b) ∨ 0 < alignedMagnitude fold b (expField a) := by
    have hsa := two_pow_le_sig ha
    have hsb := two_pow_le_sig hb
    rcases le_total (expField b) (expField a) with h | h
    · left; rw [alignedMagnitude_of_le fold h]; omega
    · right; rw [alignedMagnitude_of_le fold h]; omega
  rw [closedSum_eq, applySign_add_eq_zero_iff hpos, alignedMagnitude_eq_iff fold ha hb, and_assoc]

/-- A word and its negation cancel. -/
theorem closedSum_neg_self (fold : AlignStickyFold) {a : Word} (ha : expField a ≠ 0) : closedSum fold a (neg a) = 0 := by
  rw [closedSum_eq_zero_iff fold ha ((expField_neg a).symm ▸ ha), expField_neg, unpack_neg]
  refine ⟨rfl, rfl, ?_⟩
  dsimp only
  bv_omega

/-! ### Accuracy (42_addsub.md R141) -/

/-- The exact sum of two words, in units of the extended significand of the larger exponent. -/
def exactSum (a b : Word) : ℚ :=
  signFactor (unpack a).sign * (((8 * sig a : Nat) : ℚ) / 2 ^ (expField b - expField a).toNat) +
    signFactor (unpack b).sign * (((8 * sig b : Nat) : ℚ) / 2 ^ (expField a - expField b).toNat)

theorem exactSum_comm (a b : Word) : exactSum a b = exactSum b a := add_comm _ _

/-- One operand's part of the exact sum has its word's value. -/
theorem wordValue_eq_aligned {w : Word} (h : expField w ≠ 0) (e : Int) :
    wordValue w = signFactor (unpack w).sign * (((8 * sig w : Nat) : ℚ) / 2 ^ (e - expField w).toNat) *
      (2 : ℚ) ^ (max (expField w) e - 153) := by
  have hexp : expField w - 150 = (max (expField w) e - 153) - ((e - expField w).toNat : ℤ) + 3 := by omega
  rw [wordValue_of_expField_ne h, hexp, zpow_add₀ two_ne_zero, zpow_sub₀ two_ne_zero, zpow_natCast]
  push_cast
  ring

theorem wordValue_add_eq_exactSum {a b : Word} (ha : expField a ≠ 0) (hb : expField b ≠ 0) :
    wordValue a + wordValue b = exactSum a b * (2 : ℚ) ^ (max (expField a) (expField b) - 153) := by
  rw [wordValue_eq_aligned ha (expField b), wordValue_eq_aligned hb (expField a), max_comm (expField b), ← add_mul, exactSum]

theorem StickyImage.applySign {z : ℚ} {x : Nat} (h : StickyImage z (x : ℤ)) (s : BitVec 1) :
    StickyImage (signFactor s * z) (applySign s x) := by
  unfold signFactor Machine.applySign
  split
  · rw [neg_one_mul]; exact h.neg
  · rwa [one_mul]

theorem cast_applySign (s : BitVec 1) (x : Nat) : ((applySign s x : ℤ) : ℚ) = signFactor s * x := by
  unfold signFactor applySign
  split <;> simp

/-- The engine's sum stands for the exact sum; where it is not exact, cancellation leaves it at least 2^25, so that the
sticky lies below the round bit (42_addsub.md R141). -/
theorem stickyImage_closedSum {a b : Word} (ha : expField a ≠ 0) (hb : expField b ≠ 0) :
    StickyImage (exactSum a b) (closedSum .or a b) ∧
      (exactSum a b ≠ closedSum .or a b → 2 ^ 25 ≤ (closedSum .or a b).natAbs) := by
  wlog hle : expField b ≤ expField a generalizing a b
  · rw [exactSum_comm, closedSum_comm]
    exact this hb ha (by omega)
  have hexact : exactSum a b = signFactor (unpack b).sign * (((8 * sig b : Nat) : ℚ) / 2 ^ (expField a - expField b).toNat) +
      ((applySign (unpack a).sign (8 * sig a) : ℤ) : ℚ) := by
    rw [exactSum, Int.toNat_of_nonpos (by omega), pow_zero, div_one, cast_applySign, add_comm]
  have hsum : closedSum .or a b = applySign (unpack b).sign (alignedMagnitude .or b (expField a)) +
      applySign (unpack a).sign (8 * sig a) := by
    rw [closedSum_eq, alignedMagnitude_of_le .or hle, Int.add_comm]
  have himage : StickyImage (((8 * sig b : Nat) : ℚ) / 2 ^ (expField a - expField b).toNat)
      (alignedMagnitude .or b (expField a) : ℤ) := stickyImage_closedAlign _ _
  have heven : applySign (unpack a).sign (8 * sig a) % 2 = 0 := by unfold applySign; split <;> omega
  refine ⟨?_, fun hne => ?_⟩
  · rw [hexact, hsum]
    exact (himage.applySign _).add_even heven
  · have hfar : 4 ≤ (expField a - expField b).toNat := by
      by_contra hnear
      have hdvd : 2 ^ (expField a - expField b).toNat ∣ 8 * sig b :=
        two_pow_dvd_of_mod_eight (by omega) (by omega)
      apply hne
      rw [hexact, hsum, Int.cast_add, cast_applySign _ (alignedMagnitude _ _ _), alignedMagnitude, ← align_eq_closedAlign,
        align_or_of_dvd hdvd, Nat.cast_div_charZero hdvd]
      push_cast
      rfl
    have hsb := sig_lt b
    have hsmall : alignedMagnitude .or b (expField a) < 2 ^ 23 := by
      refine closedAlign_lt .or ?_ (by decide)
      calc 8 * sig b < 2 ^ 27 := by omega
        _ ≤ _ := Nat.pow_le_pow_right (by decide) (by omega)
    have hlarge := two_pow_le_sig ha
    rw [hsum]
    have hA := natAbs_applySign (unpack a).sign (8 * sig a)
    have hB := natAbs_applySign (unpack b).sign (alignedMagnitude .or b (expField a))
    omega

/-- The result of an addition whose true exponent fits the field is the exact sum rounded. -/
theorem isRounded24_add {a b : Word} (ha : expField a ≠ 0) (hb : expField b ≠ 0) {s : BitVec 1} {E : Int} {f : BitVec 23}
    (hparts : addEngine .or a b = .parts s E f) (hlow : 1 ≤ E) (hhigh : E ≤ 255) :
    IsRounded24 (wordValue a + wordValue b) (wordValue (pack s E f)) := by
  have hsum : closedSum .or a b ≠ 0 := by
    intro hzero
    rw [addEngine_of_sum_eq_zero ha hb hzero] at hparts
    cases hparts
  rw [addEngine_of_sum_ne_zero ha hb hsum, EngineResult.parts.injEq] at hparts
  obtain ⟨rfl, rfl, rfl⟩ := hparts
  obtain ⟨himage, hlen⟩ := stickyImage_closedSum ha hb
  rw [wordValue_pack_closedNorm hsum _ _ hlow hhigh, signFactor_closedNorm, wordValue_add_eq_exactSum ha hb]
  exact (himage.isRounded24_roundedInt hlen).mul_zpow _

/-- An exact sum of 0 is found to be 0: the sticky image of 0 is 0. -/
theorem addEngine_of_exact_zero {a b : Word} (ha : expField a ≠ 0) (hb : expField b ≠ 0)
    (hzero : wordValue a + wordValue b = 0) : addEngine .or a b = .word 0x00000000#32 := by
  rw [wordValue_add_eq_exactSum ha hb, mul_eq_zero] at hzero
  obtain ⟨himage, -⟩ := stickyImage_closedSum ha hb
  rw [hzero.resolve_right (two_zpow_pos _).ne'] at himage
  exact addEngine_of_sum_eq_zero ha hb himage.eq_zero

end Sys2Proof.Machine

namespace Sys2Proof

open Sys2Proof.Machine

/-- Settles O23: the engine's branches are those of the closed form, and this hardware's fold is OR. -/
theorem addDeliversItsClosedForm : Obligations.AddDeliversItsClosedForm := fun fold a b s =>
  ⟨execAddWith_eq_closedAdd fold a b s, execAddWith_eq_closedAdd .or a b s⟩

/-- Settles O24, as the addition of the negation. -/
theorem subDeliversItsClosedForm : Obligations.SubDeliversItsClosedForm := fun fold a b s =>
  ⟨execAddWith_eq_closedAdd fold a (neg b) s, execAddWith_eq_closedAdd .or a (neg b) s⟩

/-- Settles O22: an operand of smaller exponent is aligned below the other, so only equal exponents can cancel. -/
theorem sumIsZeroOnlyForOppositeOperands : Obligations.SumIsZeroOnlyForOppositeOperands := by
  intro fold a b ha hb
  rw [signedSum_eq_closedSum]
  refine ⟨closedSum_eq_zero_iff fold ha hb, fun hsum s => ?_⟩
  rw [execAddWith, addEngine_of_sum_eq_zero ha hb hsum, resultWord_word]

/-- Settles O20: the corner cases are the zero tests of the addition and the exact zero sum. -/
theorem subAddsTheNegation : Obligations.SubAddsTheNegation := by
  intro fold a b s
  have hzero : expField 0x00000000#32 = 0 := by decide
  refine ⟨rfl, rfl, fun ha => ?_, fun ha => ?_, fun hb => ?_, fun hb => ?_⟩
  · have hneg : expField (neg a) ≠ 0 := expField_neg a ▸ ha
    change Host.Outcome.next (s.writeY (resultWord (addEngine .or a (neg a)))) = _
    rw [addEngine_of_sum_eq_zero ha hneg (closedSum_neg_self .or ha), resultWord_word]
  · exact execAddWith_zero_right .or s ((expField_neg a).trans ha)
  · exact execAddWith_zero_left .or s (expField_neg b ▸ hb) hzero
  · exact execAddWith_zero_right .or s ((expField_neg b).trans hb)

/-- Settles O25: the sum is a sticky image of the exact one, and so rounds as it does. -/
theorem addRoundsTheExactSum : Obligations.AddRoundsTheExactSum := by
  intro a b st ha hb
  refine ⟨resultWord (addEngine .or a b), rfl, fun hzero => ?_, fun s E f hparts hlow hhigh => ?_⟩
  · rw [addEngine_of_exact_zero ha hb hzero, resultWord_word]
  · rw [hparts, resultWord_parts]
    exact isRounded24_add ha hb hparts hlow hhigh

/-- Settles O26: the addition of the negation, whose value is the negative one. -/
theorem subRoundsTheExactDifference : Obligations.SubRoundsTheExactDifference := by
  intro a b st ha hb
  have hneg : expField (neg b) ≠ 0 := expField_neg b ▸ hb
  obtain ⟨w, hexec, hzero, hround⟩ := addRoundsTheExactSum a (neg b) st ha hneg
  rw [wordValue_neg, ← sub_eq_add_neg] at hzero hround
  exact ⟨w, hexec, hzero, hround⟩

/-- Settles O27, by `1.0 + 0x3E000005`: the bit that REPLACE drops is the one above the tie, so its result differs from that
of OR, which is the rounding. -/
theorem replaceFoldMisroundsSomeSum : Obligations.ReplaceFoldMisroundsSomeSum := by
  refine ⟨0x3F800000#32, 0x3E000005#32, 0#1, 127, 0x100000#23, by decide, by decide, by decide, by decide, by decide, by decide,
    fun hreplace => ?_⟩
  have hor := isRounded24_add (a := 0x3F800000#32) (b := 0x3E000005#32) (s := 0#1) (E := 127) (f := 0x100001#23)
    (by decide) (by decide) (by decide) (by decide) (by decide)
  have hequal := hreplace.unique hor
  rw [wordValue_pack _ _ (by decide) (by decide), wordValue_pack _ _ (by decide) (by decide)] at hequal
  norm_num [signFactor] at hequal

end Sys2Proof
end

section
/-! Multiplication: the closed form, the exponent and the accuracy (43_multiply.md). -/

namespace Sys2Proof.Machine

/-! ### The closed form (43_multiply.md R163, R164) -/

/-- The exponent the normalizer gives a natural number, with the provisional exponent 150 of every caller. -/
theorem closedNorm_natCast_exponent (x : Nat) :
    (closedNorm (x : Int) 150).exponent = 126 + (bitLength x : Int) + (roundCarry x : Int) := by
  simp only [closedNorm, Int.natAbs_natCast]
  ring

theorem closedWindow_eq_zero_iff (a b : Word) : closedWindow a b = 0 ↔ sig a * sig b = 0 := productWindow_eq_zero_iff _

theorem sig_mul_sig_lt (a b : Word) : sig a * sig b < 2 ^ 48 := by
  calc sig a * sig b < 2 ^ 24 * 2 ^ 24 := Nat.mul_lt_mul'' (sig_lt a) (sig_lt b)
    _ = 2 ^ 48 := by norm_num

theorem closedWindow_lt (a b : Word) : closedWindow a b < 2 ^ 28 := productWindow_lt (sig_mul_sig_lt a b)

/-- A multiplication that rounds: the window normalized with the correction `ea + eb - 280`. -/
theorem mulEngine_of_ne_zero {a b : Word} (h : closedWindow a b ≠ 0) :
    mulEngine a b = .parts (signXor a b)
      ((closedNorm (closedWindow a b) 150).exponent + (expField a + expField b - 280))
      (closedNorm (closedWindow a b) 150).fraction := by
  have hwindow : productWindow (product (sig a) (sig b)) = closedWindow a b := by rw [product_sig, closedWindow]
  rcases mulEngine_cases a b with ⟨hz, -⟩ | ⟨-, n, hn, hparts⟩
  · exact absurd (hwindow ▸ hz) h
  · rw [hwindow] at hn
    obtain ⟨-, rfl⟩ := eq_closedNorm_of_norm hn
    rw [hparts]
    congr 1
    ring

theorem instrResult_mul_eq_closedMul (a b : Word) : instrResult (.mul a b) = closedMul a b := by
  unfold closedMul
  split_ifs with hzero
  · exact instrResult_mul_of_window_zero (by rw [product_sig]; exact (closedWindow_eq_zero_iff a b).mpr hzero)
  · have hne : closedWindow a b ≠ 0 := mt (closedWindow_eq_zero_iff a b).mp hzero
    change resultWord (mulEngine a b) = _
    rw [mulEngine_of_ne_zero hne, resultWord_parts]
    rw [closedNorm_natCast_exponent]
    congr 1
    ring

/-! ### Words with nonzero exponent fields -/

section
variable {a b : Word} (ha : expField a ≠ 0) (hb : expField b ≠ 0)
include ha hb

theorem two_pow_le_sig_mul_sig : 2 ^ 46 ≤ sig a * sig b := by
  calc 2 ^ 46 = 2 ^ 23 * 2 ^ 23 := by norm_num
    _ ≤ sig a * sig b := Nat.mul_le_mul (two_pow_le_sig ha) (two_pow_le_sig hb)

theorem two_pow_le_closedWindow : 2 ^ 26 ≤ closedWindow a b := by
  have hproduct := two_pow_le_sig_mul_sig ha hb
  rw [closedWindow, productWindow_eq]
  exact le_trans (by omega) Nat.left_le_or

/-- The window has 27 or 28 bits, as the product has 47 or 48: the sticky does not lengthen it. -/
theorem bitLength_closedWindow : bitLength (closedWindow a b) = 27 + if 2 ^ 47 ≤ sig a * sig b then 1 else 0 := by
  have hlt := closedWindow_lt a b
  have hlow := two_pow_le_closedWindow ha hb
  split_ifs with hlong
  · refine bitLength_eq_succ ?_ hlt
    rw [closedWindow, productWindow_eq]
    exact le_trans (by omega) Nat.left_le_or
  · refine bitLength_eq_succ hlow ?_
    rw [closedWindow, productWindow_eq]
    exact Nat.or_lt_two_pow (by omega) ((Bool.toNat_lt _).trans (by decide))

end

/-! ### Accuracy (43_multiply.md R166) -/

theorem signFactor_xor (s s' : BitVec 1) : signFactor (s ^^^ s') = signFactor s * signFactor s' := by
  have hs : s = 0#1 ∨ s = 1#1 := by bv_omega
  have hs' : s' = 0#1 ∨ s' = 1#1 := by bv_omega
  rcases hs with rfl | rfl <;> rcases hs' with rfl | rfl <;> simp [signFactor]

/-- The exact product, in units of the window. -/
theorem wordValue_mul_eq {a b : Word} (ha : expField a ≠ 0) (hb : expField b ≠ 0) :
    wordValue a * wordValue b =
      signFactor (signXor a b) * (((sig a * sig b : Nat) : ℚ) / 2 ^ 20) * (2 : ℚ) ^ (expField a + expField b - 280) := by
  have hexp : expField a + expField b - 280 = (expField a - 150) + (expField b - 150) + 20 := by ring
  rw [wordValue_of_expField_ne ha, wordValue_of_expField_ne hb, signXor, signFactor_xor, hexp, zpow_add₀ two_ne_zero,
    zpow_add₀ two_ne_zero, show (2 : ℚ) ^ (20 : ℤ) = 2 ^ 20 from zpow_natCast 2 20]
  push_cast
  field_simp

/-- The result of a multiplication whose true exponent fits the field is the exact product rounded. -/
theorem isRounded24_mul {a b : Word} (ha : expField a ≠ 0) (hb : expField b ≠ 0) {s : BitVec 1} {E : Int} {f : BitVec 23}
    (hparts : mulEngine a b = .parts s E f) (hlow : 1 ≤ E) (hhigh : E ≤ 255) :
    IsRounded24 (wordValue a * wordValue b) (wordValue (pack s E f)) := by
  have hwindow := two_pow_le_closedWindow ha hb
  have hne : closedWindow a b ≠ 0 := by omega
  have himage : StickyImage (((sig a * sig b : Nat) : ℚ) / 2 ^ 20) (closedWindow a b : ℤ) := stickyImage_closedAlign _ 20
  rw [mulEngine_of_ne_zero hne, EngineResult.parts.injEq] at hparts
  obtain ⟨rfl, rfl, rfl⟩ := hparts
  rw [wordValue_pack_closedNorm (by exact_mod_cast hne) _ _ hlow hhigh, wordValue_mul_eq ha hb, Int.natAbs_natCast]
  exact ((himage.isRounded24_rne24 hne fun _ => by omega).signFactor_mul _).mul_zpow _

end Sys2Proof.Machine

namespace Sys2Proof

open Sys2Proof.Machine

/-- Settles O31: the engine's two branches are those of the closed form. -/
theorem mulDeliversItsClosedForm : Obligations.MulDeliversItsClosedForm := by
  intro a b s
  rw [exec_eq, instrResult_mul_eq_closedMul]

/-- Settles O32: the window of such a product has `27 + t` bits. -/
theorem mulExponentOfNonzeroFields : Obligations.MulExponentOfNonzeroFields := by
  intro a b ha hb
  have hwindow := two_pow_le_closedWindow ha hb
  refine ⟨(closedNorm (closedWindow a b) 150).fraction, ?_⟩
  rw [mulEngine_of_ne_zero (by omega), closedNorm_natCast_exponent, bitLength_closedWindow ha hb, closedWindow]
  congr 1
  push_cast
  ring

/-- Settles O33: the window is a sticky image of the exact product, of at least 27 bits. -/
theorem mulRoundsTheExactProduct : Obligations.MulRoundsTheExactProduct := by
  intro a b st ha hb
  refine ⟨resultWord (mulEngine a b), rfl, fun s E f hparts hlow hhigh => ?_⟩
  rw [hparts, resultWord_parts]
  exact isRounded24_mul ha hb hparts hlow hhigh

end Sys2Proof
end

section
/-! Division: the long division, the closed form with its zero and tiny divisors, the exponent and the accuracy
(44_divide.md; 60_exceptions.md, section 2). -/

namespace Sys2Proof.Machine

/-! ### The long division (44_divide.md R181) -/

/-- A dividend below twice the divisor is divided exactly: quotient, and twice the remainder. -/
theorem longDivision_of_lt {N D : Nat} (h : N < 2 * D) :
    (longDivision N D).q = N * 2 ^ 25 / D ∧ (longDivision N D).r = 2 * (N * 2 ^ 25 % D) := by
  have hkeeps := longDivision_keeps N D
  have hlt : (longDivision N D).r < 2 * D := divLoop_remainder_lt h 26
  obtain ⟨r, hr⟩ : ∃ r, (longDivision N D).r = 2 * r := ⟨(longDivision N D).r / 2, by omega⟩
  have hdivision : N * 2 ^ 25 = D * (longDivision N D).q + r := by rw [Nat.mul_comm D]; omega
  have hquotient := Nat.div_mod_unique (a := N * 2 ^ 25) (b := D) (c := r) (d := (longDivision N D).q) (by omega)
  obtain ⟨hq, hmod⟩ := hquotient.mpr ⟨by omega, by omega⟩
  exact ⟨hq.symm, by rw [hmod, hr]⟩

/-- A dividend of at least twice the divisor stays so, and the divisor is subtracted in every iteration. -/
theorem divLoop_of_two_mul_le {N D : Nat} (h : 2 * D ≤ N) (n : Nat) :
    (divLoop D n { q := 0, r := N }).q + 1 = 2 ^ n ∧ 2 * D ≤ (divLoop D n { q := 0, r := N }).r := by
  induction n with
  | zero => exact ⟨rfl, h⟩
  | succ n ih =>
    obtain ⟨hq, hr⟩ := ih
    rw [divLoop_succ, divStep_of_ge (by omega), pow_succ]
    dsimp only
    omega

/-- So every quotient bit is 1, and the remainder vanishes for `0 / 0` only (60_exceptions.md R203). -/
theorem longDivision_of_two_mul_le {N D : Nat} (h : 2 * D ≤ N) :
    (longDivision N D).q = 2 ^ 26 - 1 ∧ ((longDivision N D).r = 0 ↔ N = 0) := by
  obtain ⟨hq, hr⟩ : (longDivision N D).q + 1 = 2 ^ 26 ∧ 2 * D ≤ (longDivision N D).r := divLoop_of_two_mul_le h 26
  have hq' : (longDivision N D).q = 2 ^ 26 - 1 := by omega
  have hkeeps := longDivision_keeps N D
  rw [hq'] at hkeeps
  exact ⟨hq', by omega⟩

/-- The sticky slot of an exact division is the closed form's. -/
theorem quotientWithSticky_of_lt {N D : Nat} (h : N < 2 * D) :
    quotientWithSticky (longDivision N D) = closedQuotient N D := by
  obtain ⟨hq, hr⟩ := longDivision_of_lt h
  rw [quotientWithSticky_eq, hq, hr, closedQuotient]
  simp only [Nat.mul_eq_zero, OfNat.ofNat_ne_zero, false_or]

/-- All ones, with or without the sticky, round up to `2^24` and carry: the fraction is 0 and the exponent 154. -/
theorem closedNorm_of_two_mul_le {N D : Nat} (h : 2 * D ≤ N) :
    closedNorm (quotientWithSticky (longDivision N D)) 150 = ⟨0#1, 154, 0#23⟩ := by
  obtain ⟨hq, -⟩ := longDivision_of_two_mul_le h
  rw [quotientWithSticky_eq, hq]
  split <;> decide

/-! ### The closed form (44_divide.md R183, R184; 60_exceptions.md R203) -/

/-- A division that rounds: the quotient with its sticky normalized with the correction `ea - eb - 26`. -/
theorem divEngine_of_ne_zero {a b : Word} (h : quotientWithSticky (longDivision (sig a) (sig b)) ≠ 0) :
    divEngine a b = .parts (signXor a b)
      ((closedNorm (quotientWithSticky (longDivision (sig a) (sig b))) 150).exponent + (expField a - expField b - 26))
      (closedNorm (quotientWithSticky (longDivision (sig a) (sig b))) 150).fraction := by
  rcases divEngine_cases a b with ⟨hz, -⟩ | ⟨-, n, hn, hparts⟩
  · exact absurd hz h
  · obtain ⟨-, rfl⟩ := eq_closedNorm_of_norm hn
    rw [hparts]
    congr 1
    ring

theorem instrResult_div_of_two_mul_le {a b : Word} (h : 2 * sig b ≤ sig a) :
    instrResult (.div a b) = pack (signXor a b) (expField a - expField b + 128) 0#23 := by
  have hne : quotientWithSticky (longDivision (sig a) (sig b)) ≠ 0 := by
    rw [Ne, quotientWithSticky_longDivision_eq_zero_iff]
    omega
  change resultWord (divEngine a b) = _
  rw [divEngine_of_ne_zero hne, resultWord_parts, closedNorm_of_two_mul_le h]
  congr 1
  ring

theorem instrResult_div_eq_closedDiv (a b : Word) : instrResult (.div a b) = closedDiv a b := by
  unfold closedDiv
  split_ifs with hle hzero
  · exact instrResult_div_of_two_mul_le hle
  · refine instrResult_div_of_quotient_zero ?_
    rw [quotientWithSticky_longDivision_eq_zero_iff]
    omega
  · have hne : quotientWithSticky (longDivision (sig a) (sig b)) ≠ 0 := by
      rw [Ne, quotientWithSticky_longDivision_eq_zero_iff]
      omega
    change resultWord (divEngine a b) = _
    rw [divEngine_of_ne_zero hne, resultWord_parts, quotientWithSticky_of_lt (by omega)]
    rw [closedNorm_natCast_exponent]
    congr 1
    ring

/-! ### Words with nonzero exponent fields -/

/-- The sticky slot gives the closed form one bit more than the quotient has. -/
theorem bitLength_closedQuotient_of_range {N D n : Nat} (hlow : 2 ^ n * D ≤ N * 2 ^ 25) (hhigh : N * 2 ^ 25 < 2 ^ (n + 1) * D) :
    bitLength (closedQuotient N D) = n + 2 := by
  have hD : 0 < D := Nat.pos_of_mul_pos_left ((Nat.zero_le _).trans_lt hhigh)
  have hge : 2 ^ n ≤ N * 2 ^ 25 / D := (Nat.le_div_iff_mul_le hD).mpr hlow
  have hlt : N * 2 ^ 25 / D < 2 ^ (n + 1) := (Nat.div_lt_iff_lt_mul hD).mpr hhigh
  have hslot : (if N * 2 ^ 25 % D = 0 then 0 else 1) ≤ 1 := by split <;> omega
  refine bitLength_eq_succ ?_ ?_ <;> rw [closedQuotient] <;> omega

theorem inv_signFactor (s : BitVec 1) : (signFactor s)⁻¹ = signFactor s := by
  unfold signFactor
  split <;> norm_num

section
variable {a b : Word}

/-- A dividend is below twice a divisor with its implied one. -/
theorem sig_lt_two_mul_sig (a : Word) (hb : expField b ≠ 0) : sig a < 2 * sig b := by
  have hlow := two_pow_le_sig hb
  have hhigh := sig_lt a
  omega

variable (ha : expField a ≠ 0) (hb : expField b ≠ 0)
include ha hb

/-- The quotient with its sticky has 27 bits, or 26 when the dividend's significand is the smaller. -/
theorem bitLength_closedQuotient :
    bitLength (closedQuotient (sig a) (sig b)) = 27 - if sig a < sig b then 1 else 0 := by
  have hab := sig_lt_two_mul_sig a hb
  have hba := sig_lt_two_mul_sig b ha
  split_ifs with hlt
  · exact bitLength_closedQuotient_of_range (n := 24) (by omega) (by omega)
  · exact bitLength_closedQuotient_of_range (n := 25) (by omega) (by omega)

theorem two_pow_le_closedQuotient : 2 ^ 25 ≤ closedQuotient (sig a) (sig b) := by
  have hne : closedQuotient (sig a) (sig b) ≠ 0 := by
    rw [← quotientWithSticky_of_lt (sig_lt_two_mul_sig a hb), Ne, quotientWithSticky_longDivision_eq_zero_iff]
    have hlow := two_pow_le_sig ha
    omega
  refine two_pow_le_of_bitLength hne ?_
  rw [bitLength_closedQuotient ha hb]
  split <;> decide

/-- A division of such words, in closed form. -/
theorem divEngine_of_nonzero_fields :
    divEngine a b = .parts (signXor a b)
      ((closedNorm (closedQuotient (sig a) (sig b)) 150).exponent + (expField a - expField b - 26))
      (closedNorm (closedQuotient (sig a) (sig b)) 150).fraction := by
  have hquotient := quotientWithSticky_of_lt (sig_lt_two_mul_sig a hb)
  have hlow := two_pow_le_closedQuotient ha hb
  rw [divEngine_of_ne_zero (by omega), hquotient]

/-! ### Accuracy (44_divide.md R186) -/

/-- The exact quotient, in units of the quotient's sticky slot. -/
theorem wordValue_div_eq :
    wordValue a / wordValue b =
      signFactor (signXor a b) * (((sig a * 2 ^ 26 : Nat) : ℚ) / sig b) * (2 : ℚ) ^ (expField a - expField b - 26) := by
  have hscale : (2 : ℚ) ^ (expField a - expField b - 26) =
      (2 : ℚ) ^ (expField a - 150) * ((2 : ℚ) ^ (expField b - 150))⁻¹ * (2 ^ 26)⁻¹ := by
    rw [← zpow_natCast, ← zpow_neg, ← zpow_neg, ← zpow_add₀ two_ne_zero, ← zpow_add₀ two_ne_zero]
    congr 1
    push_cast
    ring
  rw [wordValue_of_expField_ne ha, wordValue_of_expField_ne hb, signXor, signFactor_xor, hscale, div_eq_mul_inv, mul_inv, mul_inv,
    inv_signFactor]
  push_cast
  ring

end

/-- The quotient with its sticky stands for the exact quotient. -/
theorem stickyImage_closedQuotient (N : Nat) {D : Nat} (hD : 0 < D) :
    StickyImage (((N * 2 ^ 26 : Nat) : ℚ) / D) (closedQuotient N D : ℤ) := by
  have hD' : (0 : ℚ) < D := by exact_mod_cast hD
  have hdivision : N * 2 ^ 26 = 2 * (N * 2 ^ 25 / D) * D + 2 * (N * 2 ^ 25 % D) := by
    have hdm := Nat.div_add_mod' (N * 2 ^ 25) D
    rw [Nat.mul_assoc, ← Nat.mul_add, hdm]
    ring
  have hlt := Nat.mod_lt (N * 2 ^ 25) hD
  unfold closedQuotient
  generalize N * 2 ^ 25 / D = q at hdivision ⊢
  generalize N * 2 ^ 25 % D = r at hdivision hlt ⊢
  rw [hdivision]
  split_ifs with hr
  · left
    rw [hr, div_eq_iff hD'.ne']
    push_cast
    ring
  · have hpos : (0 : ℚ) < r := by exact_mod_cast Nat.pos_of_ne_zero hr
    have hlt' : (r : ℚ) < D := by exact_mod_cast hlt
    refine .inr ⟨by omega, ?_, ?_⟩
    · rw [lt_div_iff₀ hD']
      push_cast
      linarith
    · rw [div_lt_iff₀ hD']
      push_cast
      linarith

/-- The result of a division whose true exponent fits the field is the exact quotient rounded. -/
theorem isRounded24_div {a b : Word} (ha : expField a ≠ 0) (hb : expField b ≠ 0) {s : BitVec 1} {E : Int} {f : BitVec 23}
    (hparts : divEngine a b = .parts s E f) (hlow : 1 ≤ E) (hhigh : E ≤ 255) :
    IsRounded24 (wordValue a / wordValue b) (wordValue (pack s E f)) := by
  have hquotient := two_pow_le_closedQuotient ha hb
  have hne : closedQuotient (sig a) (sig b) ≠ 0 := by omega
  have hpos : 0 < sig b := lt_of_lt_of_le (by decide) (two_pow_le_sig hb)
  rw [divEngine_of_nonzero_fields ha hb, EngineResult.parts.injEq] at hparts
  obtain ⟨rfl, rfl, rfl⟩ := hparts
  rw [wordValue_pack_closedNorm (by exact_mod_cast hne) _ _ hlow hhigh, wordValue_div_eq ha hb, Int.natAbs_natCast]
  exact (((stickyImage_closedQuotient _ hpos).isRounded24_rne24 hne fun _ => hquotient).signFactor_mul _).mul_zpow _

end Sys2Proof.Machine

namespace Sys2Proof

open Sys2Proof.Machine

/-- Settles O34: a dividend of 24 bits is below twice a divisor with its implied one; any other case is all ones. -/
theorem longDivisionGivesQuotientAndRemainder : Obligations.LongDivisionGivesQuotientAndRemainder := by
  refine fun N D hN => ⟨fun hD => ?_, longDivision_of_two_mul_le⟩
  have hlt : N < 2 * D := by omega
  obtain ⟨hq, -⟩ := longDivision_of_lt hlt
  have hkeeps := longDivision_keeps N D
  exact ⟨hq, by omega⟩

/-- Settles O38: the engine's branches are those of the closed form. -/
theorem divDeliversItsClosedForm : Obligations.DivDeliversItsClosedForm := by
  intro a b s
  rw [exec_eq, instrResult_div_eq_closedDiv]

/-- Settles O37: a zero divisor is at most half of every dividend, and its exponent field is 0. -/
theorem divideByZeroGivesItsClosedForm : Obligations.DivideByZeroGivesItsClosedForm := by
  intro a b s hb
  have hle : 2 * sig b ≤ sig a := by omega
  have hfield : expField b = 0 := by
    by_contra hne
    have hlow := two_pow_le_sig hne
    omega
  refine ⟨_, exec_eq (.div a b) s, ?_⟩
  rw [instrResult_div_of_two_mul_le hle, unpack_pack, expField_pack, hfield, Int.sub_zero]
  exact ⟨rfl, rfl, rfl⟩

/-- Settles O39: the quotient of such words has `27 - u` bits with its sticky. -/
theorem divExponentOfNonzeroFields : Obligations.DivExponentOfNonzeroFields := by
  intro a b ha hb
  refine ⟨(closedNorm (closedQuotient (sig a) (sig b)) 150).fraction, ?_⟩
  rw [divEngine_of_nonzero_fields ha hb, closedNorm_natCast_exponent, bitLength_closedQuotient ha hb]
  congr 1
  split <;> push_cast <;> ring

/-- Settles O40: the quotient with its sticky is a sticky image of the exact one, of at least 26 bits. -/
theorem divRoundsTheExactQuotient : Obligations.DivRoundsTheExactQuotient := by
  intro a b st ha hb
  refine ⟨resultWord (divEngine a b), rfl, fun s E f hparts hlow hhigh => ?_⟩
  rw [hparts, resultWord_parts]
  exact isRounded24_div ha hb hparts hlow hhigh

end Sys2Proof
end

section
/-! Widths and exponents: the bounds of 10_state.md R30 and the wrapped exponent of 60_exceptions.md, section 2. -/

namespace Sys2Proof.Machine

/-! ### Inside the normalizer -/

/-- However many iterations the right normalization is given, it gathers at most the `L - 24` low bits. -/
theorem GatheredBits.normRight_exists {x k : Nat} {e : Int} {n : NormWork} (hx : x ≠ 0) (h : GatheredBits x e k n)
    (hk : k ≤ bitLength x - 24) (fuel : Nat) : ∃ j ≤ bitLength x - 24, GatheredBits x e j (normRight fuel n) := by
  induction fuel generalizing k n with
  | zero => exact ⟨k, hk, h⟩
  | succ fuel ih =>
    by_cases hbig : 2 ^ 24 ≤ n.M
    · have hlt : k < bitLength x - 24 := (le_div_two_pow_iff_lt_bitLength hx k).mp (h.magnitude ▸ hbig)
      rw [normRight_big hbig]
      exact ih h.shiftRight hlt
    · rw [normRight_small (by omega)]
      exact ⟨k, hk, h⟩

/-- The right normalization keeps the magnitude within its start value and raises the exponent by the bits shifted out. -/
theorem normRight_bounds {m : Int} (hm : m ≠ 0) (e : Int) (k : Nat) :
    (normRight k (normStart m e)).M ≤ m.natAbs ∧ e ≤ (normRight k (normStart m e)).E ∧
      (normRight k (normStart m e)).E ≤ e + (bitLength m.natAbs - 24 : Nat) := by
  obtain ⟨j, hj, hgathered⟩ :=
    (gatheredBits_normStart m e).normRight_exists (Int.natAbs_ne_zero.mpr hm) (Nat.zero_le _) k
  rw [hgathered.magnitude, hgathered.exponent]
  exact ⟨Nat.div_le_self _ _, by omega, by omega⟩

/-- The left normalization stays below 2^24 and lowers the exponent by at most one an iteration. -/
theorem normLeft_bounds {n : NormWork} (h : n.M < 2 ^ 24) (k : Nat) :
    (normLeft k n).M < 2 ^ 24 ∧ n.E - k ≤ (normLeft k n).E ∧ (normLeft k n).E ≤ n.E := by
  induction k generalizing n with
  | zero => exact ⟨h, by rw [normLeft_zero]; omega⟩
  | succ k ih =>
    by_cases hsmall : n.M < 2 ^ 23
    · have hM := normShiftLeft_M n
      have hE := normShiftLeft_E n
      obtain ⟨hlt, hlow, hhigh⟩ := ih (n := normShiftLeft n) (by omega)
      rw [normLeft_small hsmall]
      exact ⟨hlt, by omega, by omega⟩
    · rw [normLeft_big (by omega)]
      exact ⟨h, by omega⟩

theorem normWork_exponent_range {m : Int} (hm : m ≠ 0) {width : Nat} (hwidth : m.natAbs < 2 ^ width) (hpos : 1 ≤ width) :
    127 ≤ (normWork m 150).E ∧ (normWork m 150).E ≤ 127 + width :=
  norm_exponent_range (norm_of_ne_zero hm 150) hwidth hpos

/-! ### The engines' operands and loops -/

section
variable (fold : AlignStickyFold) (a b : Word)

theorem extendedSig_lt : extendedSig a < 2 ^ 27 := by
  have hsig := sig_lt a
  rw [extendedSig_eq]
  omega

theorem signedSum_natAbs_lt : (signedSum fold a b).natAbs < 2 ^ 28 := by
  rw [signedSum_eq_closedSum]
  exact closedSum_natAbs_lt fold a b

theorem productWindow_product_lt : productWindow (product (sig a) (sig b)) < 2 ^ 28 := by
  rw [product_sig]
  exact closedWindow_lt a b

theorem quotientWithSticky_longDivision_lt : quotientWithSticky (longDivision (sig a) (sig b)) < 2 ^ 27 :=
  quotientWithSticky_lt (longDivision_quotient_lt _ _)

/-- A part of the product's sum is at most the product. -/
theorem shiftAdd_le (sa sb k : Nat) : shiftAdd sa sb k ≤ sa * sb := by
  rw [shiftAdd_eq]
  exact Nat.mul_le_mul_left _ (Nat.mod_le _ _)

/-- The remainder is at most the dividend shifted as often as it was, whatever the divisor. -/
theorem divLoop_remainder_le (D N n : Nat) : (divLoop D n { q := 0, r := N }).r ≤ 2 ^ n * N := by
  have hkeeps := divLoop_keeps D N n
  omega

theorem workingExponent_range : 0 ≤ workingExponent a b ∧ workingExponent a b ≤ 255 := by
  have ha := expField_range a
  have hb := expField_range b
  rw [workingExponent_eq]
  omega

/-! ### The exponents on the way to a result -/

variable {fold a b} {n : Normalized}

theorem add_norm_exponent_range (hn : norm (signedSum fold a b) 150 = some n) :
    127 ≤ n.exponent ∧ n.exponent ≤ 155 := norm_exponent_range hn (signedSum_natAbs_lt fold a b) (by decide)

theorem mul_norm_exponent_range (hn : norm (productWindow (product (sig a) (sig b)) : Int) 150 = some n) :
    127 ≤ n.exponent ∧ n.exponent ≤ 155 := norm_exponent_range hn (productWindow_product_lt a b) (by decide)

theorem div_norm_exponent_range (hn : norm (quotientWithSticky (longDivision (sig a) (sig b)) : Int) 150 = some n) :
    127 ≤ n.exponent ∧ n.exponent ≤ 154 := norm_exponent_range hn (quotientWithSticky_longDivision_lt a b) (by decide)

end

/-- The true exponent of every result stays within -154 .. 385, command by command. -/
theorem instrEngine_exponentFits {fold : AlignStickyFold} {i : Instr} {s : BitVec 1} {E : Int} {f : BitVec 23}
    (h : instrEngine fold i = .parts s E f) : exponentFits E := by
  have add_fits {a b : Word} (h : addEngine fold a b = .parts s E f) : exponentFits E := by
    rcases addEngine_cases fold a b with ⟨-, hw⟩ | ⟨-, -, hw⟩ | ⟨-, -, -, hw⟩ | ⟨-, -, -, n, hn, hp⟩
    · rw [hw] at h; cases h
    · rw [hw] at h; cases h
    · rw [hw] at h; cases h
    · rw [hp, EngineResult.parts.injEq] at h
      obtain ⟨-, rfl, -⟩ := h
      have hnorm := add_norm_exponent_range hn
      have hwe := workingExponent_range a b
      unfold exponentFits
      omega
  cases i with
  | add a b => exact add_fits h
  | sub a b => exact add_fits (b := neg b) h
  | mul a b =>
    have ha := expField_range a
    have hb := expField_range b
    rcases mulEngine_cases a b with ⟨-, hw⟩ | ⟨-, n, hn, hp⟩
    · rw [instrEngine, hw] at h; cases h
    · rw [instrEngine, hp, EngineResult.parts.injEq] at h
      obtain ⟨-, rfl, -⟩ := h
      have hnorm := mul_norm_exponent_range hn
      unfold exponentFits
      omega
  | div a b =>
    have ha := expField_range a
    have hb := expField_range b
    rcases divEngine_cases a b with ⟨-, hw⟩ | ⟨-, n, hn, hp⟩
    · rw [instrEngine, hw] at h; cases h
    · rw [instrEngine, hp, EngineResult.parts.injEq] at h
      obtain ⟨-, rfl, -⟩ := h
      have hnorm := div_norm_exponent_range hn
      unfold exponentFits
      omega
  | i2f a =>
    rcases i2fEngine_cases a with ⟨-, hw⟩ | ⟨-, n, hn, hp⟩
    · rw [instrEngine, hw] at h; cases h
    · rw [instrEngine, hp, EngineResult.parts.injEq] at h
      obtain ⟨-, rfl, -⟩ := h
      have hm := natAbs_sext32_le a
      have hnorm := norm_exponent_range (width := 32) hn (by omega) (by decide)
      unfold exponentFits
      omega

end Sys2Proof.Machine

namespace Sys2Proof

open Sys2Proof.Machine

/-- Settles O42: the result is the packing of the parts, whose exponent field is the true exponent modulo 256. -/
theorem exponentOutOfRangeWraps : Obligations.ExponentOutOfRangeWraps := by
  intro i st s E f h
  have hresult : instrResult i = pack s E f := by rw [instrResult, h, resultWord_parts]
  refine ⟨_, exec_eq i st, ?_⟩
  rw [hresult, unpack_pack, expField_pack]
  exact ⟨rfl, rfl, fun hlow hhigh => Int.emod_eq_of_lt hlow (by omega), fun _ => rfl, fun _ => rfl⟩

/-- Settles O43, from the bound of each value. -/
theorem workingValuesFitTheirWidths : Obligations.WorkingValuesFitTheirWidths := by
  intro fold a b
  refine ⟨natAbs_sext32_le a, extendedSig_lt a, ?_, ?_, signedSum_natAbs_lt fold a b, ?_, productWindow_product_lt a b,
    longDivision_quotient_lt _ _, quotientWithSticky_longDivision_lt a b, fun n hn => ⟨?_, fun hb => ?_⟩,
    fun i s E f => instrEngine_exponentFits⟩
  · rw [alignedA_eq]; exact alignedMagnitude_lt fold a _
  · rw [alignedB_eq]; exact alignedMagnitude_lt fold b _
  · rw [product_sig]; exact sig_mul_sig_lt a b
  · calc (divLoop (sig b) n ⟨0, sig a⟩).r ≤ 2 ^ n * sig a := divLoop_remainder_le _ _ _
      _ ≤ 2 ^ 26 * sig a := Nat.mul_le_mul_right _ (Nat.pow_le_pow_right (by decide) hn)
      _ < 2 ^ 50 := by have hsig := sig_lt a; omega
  · have ha := sig_lt a
    have hlt := sig_lt b
    have hr := divLoop_remainder_lt (D := sig b) (N := sig a) (by omega) n
    omega

/-- Settles O59: each loop's bound, and the exponents from the normalizer's range for the width of each engine's input. -/
theorem loopValuesAndExponentsFitTheirWidths : Obligations.LoopValuesAndExponentsFitTheirWidths := by
  refine ⟨fun m hm hwidth => ?_, fun fold a b => ?_, fun fold a b n ha hb => ?_, fun a b n => ?_⟩
  · have hlen : bitLength m.natAbs ≤ 32 := bitLength_le (by omega) (by decide)
    obtain ⟨n, rfl, hround, -, -, -, hdone⟩ := carryIsRenormalizedOnce m 150 hm
    have hwork := normWork_exponent_range hm (width := 32) (by omega) (by decide)
    refine ⟨fun k => ?_, fun k hk => ?_, hround, hdone, by omega, by omega⟩
    · obtain ⟨hM, hlow, hhigh⟩ := normRight_bounds hm 150 k
      exact ⟨by omega, by omega, by omega⟩
    · obtain ⟨-, hlow, hhigh⟩ := normRight_bounds hm 150 m.natAbs.log2
      obtain ⟨hM, hlow', hhigh'⟩ := normLeft_bounds (normRight_normStart_M_lt hm 150) k
      exact ⟨hM, by omega, by omega⟩
  · have hsum := signedSum_natAbs_lt fold a b
    have hwindow := productWindow_product_lt a b
    have hquotient := quotientWithSticky_longDivision_lt a b
    refine ⟨natAbs_sext32_le a, by omega, by omega, by omega, fun k => ?_, fun k _ => ?_, fun k hk => ?_⟩
    · rw [alignLoop_eq]
      exact (Nat.shiftRight_le _ _).trans_lt (extendedSig_lt a)
    · exact (shiftAdd_le _ _ k).trans_lt (sig_mul_sig_lt a b)
    · exact (divLoop_quotient_lt _ _ k).trans_le (Nat.pow_le_pow_right (by decide) hk)
  · have ha' := expField_range a
    have hb' := expField_range b
    have hwe := workingExponent_range a b
    refine ⟨by omega, fun hn => ?_⟩
    have hnorm := add_norm_exponent_range hn
    unfold exponentFits
    omega
  · have ha := expField_range a
    have hb := expField_range b
    unfold exponentFits
    refine ⟨by omega, fun hn => ?_, fun hn => ?_⟩
    · have hnorm := mul_norm_exponent_range hn
      omega
    · have hnorm := div_norm_exponent_range hn
      omega

end Sys2Proof
end
